-- ==== Sys2Proof/Word.lean ====
section
/-! DEFINITION. The word of the machine: every register and every memory cell is one unsigned byte (rules R8, R10, R11). -/

namespace Sys2Proof

/-- `u8` of the spec: an integer in 0 to 255, bits numbered 7 (most significant) to 0 (rule R10). -/
abbrev Byte := BitVec 8

end Sys2Proof
end

