-- ==== Sys2Proof/Config.lean ====
section
/-! DEFINITION. The implementation parameters of rule R8. Every one is fixed by the spec; the spec leaves no value of a
running instruction open, so there is no free value here. -/

namespace Sys2Proof.Config

/-- The value of `NREGS` for this hardware (rules R8, R9; decision D1). The machine itself takes `NREGS` as an argument
(`Machine.State.resetWith`, `Machine.boot`); this value is used by `Machine.State.reset` alone (log entry 7). -/
abbrev nregs : Nat := 7

/-- `LINK`: the register CALL and RET use (rules R8, R22). -/
abbrev link : Byte := 5#8

/-- `MEM_SIZE`: addresses 0 to 255 (rules R8, R29). -/
abbrev memSize : Nat := 256

/-- `PC_RESET`, the reset vector (rules R8, R25, R47). -/
abbrev pcReset : Nat := 0

/-- `SP_RESET` = `MEM_SIZE - 1` (rules R8, R26). -/
abbrev spReset : Int := 255

/-- What every memory cell holds at reset: the spec's own reset contents (rules R29, R230).
This is what an address the memory list does not name reads as (log entry 9). -/
abbrev memReset : Byte := 0#8

end Sys2Proof.Config
end

