-- ==== Sys2Proof/Machine/State.lean ====
section
/-! DEFINITION. The machine's state as plain data, its value after reset, and the reasons a step can stop
(spec/10_state.md, spec/60_exceptions.md). -/

namespace Sys2Proof.Machine

/-- The run state (rule R30). Only `running` permits a step; the others are terminal (rule R87). -/
inductive RunState where
  /-- RUNNING, the reset value -/
  | running
  /-- HALTED: a HLT executed -/
  | halted
  /-- ENDED: the program-end check found pc beyond memory -/
  | ended
  /-- FAULTED: a fault was raised; the fault record says which -/
  | faulted
  deriving DecidableEq, Repr

/-- The ALU's operation tags (rules R8, R100): nine symbolic operations, and every tag that is none of them (rule R110). -/
inductive AluOp where
  | add | sub | and | or | xor | not | shl | shr | mod
  /-- a tag outside the nine; tags have no architectural encoding (rule R110), so which one it is is only a label -/
  | unrecognized (label : Nat)
  deriving DecidableEq, Repr

/-- The runtime fault kinds of the core (rule R200). -/
inductive FaultKind where
  | unknownOpcode
  | outOfBounds
  /-- with the tag the operation was asked for: UnsupportedOperation(op) (rules R14, R110, R200; log entry 5) -/
  | unsupportedOperation (op : AluOp)
  | divisionByZero
  deriving DecidableEq, Repr

/-- The detail of a fault record: an address, a register index, or none (rule R31). -/
inductive Detail where
  /-- UnknownOpcode and UnsupportedOperation -/
  | none
  /-- OutOfBounds: the address outside 0 to 255 -/
  | address (k : Int)
  /-- OutOfBounds: the index at or above NREGS; DivisionByZero: the divisor's register index -/
  | register (i : Byte)
  deriving DecidableEq, Repr

/-- The fault record `(kind, pc, opcode, a, b, detail)` (rule R31). -/
structure FaultRecord where
  kind   : FaultKind
  pc     : Nat
  opcode : Byte
  a      : Option Byte
  b      : Option Byte
  detail : Detail
  deriving DecidableEq, Repr

/-- Memory: the cells that differ from the reset contents, by strictly rising address (log entry 9). -/
abbrev Memory := List Host.Cell

/-- The canonical form of memory: addresses strictly rising, inside the 256 cells, no cell equal to the reset contents. -/
abbrev Memory.wf (m : Memory) : Prop :=
  m.Pairwise (fun c d => c.1 < d.1) ∧ ∀ c ∈ m, c.1 < Config.memSize ∧ c.2 ≠ Config.memReset

/-- Everything the spec gives the machine (rules R20 to R36). -/
structure State where
  /-- general registers x[0] to x[NREGS-1]; the list's length is `NREGS` (rules R9, R20; log entry 7) -/
  regs  : List Byte
  /-- program counter, an integer 0 to 256 held in 9 bits (rule R25; log entry 3) -/
  pc    : Nat
  /-- stack pointer, an integer -1 to 255 held in 9 bits, two's complement (rule R26; log entry 3) -/
  sp    : Int
  /-- flags register (rule R27) -/
  fl    : Byte
  /-- instruction register (rule R28) -/
  ir    : Byte
  /-- operand byte `a` latched at operand fetch (rule R34) -/
  opA   : Byte
  /-- operand byte `b` latched at operand fetch (rule R34) -/
  opB   : Byte
  /-- the 256 memory cells (rule R29) -/
  mem   : Memory
  /-- run state (rule R30) -/
  run   : RunState
  /-- fault record (rule R31) -/
  fault : Option FaultRecord
  /-- output trace, oldest value first (rule R32) -/
  out   : List Byte
  deriving DecidableEq, Repr

/-- `NREGS` of the machine whose state this is: fixed when the machine is built, kept by every step (rules R9, R20). -/
abbrev State.nregs (s : State) : Nat := s.regs.length

/-- The machine with `nregs` general registers after RESET (rules R9, R36, R230). `ir` and the operand latches have no reset value in the spec (rules R28, R34):
0 here is a DESIGN CHOICE (log entry 1). -/
def State.resetWith (nregs : Nat) : State where
  regs  := List.replicate nregs 0#8
  pc    := Config.pcReset
  sp    := Config.spReset
  fl    := 0#8
  ir    := 0#8
  opA   := 0#8
  opB   := 0#8
  mem   := []
  run   := .running
  fault := none
  out   := []

/-- This hardware, which has 7 general registers, after RESET (rules R9, R36, R230). -/
def State.reset : State := State.resetWith Config.nregs

/-- Why `step` answers no state. A fault of the SPEC is not one of these: it is the next state with run = FAULTED (rule R202,
log entry 4). -/
inductive Fault where
  /-- Raised by `step` alone, on a state whose run state is HALTED, ENDED or FAULTED: no step is enabled there (rules R80, R87).
  Safe: the model stops where the hardware takes no step. -/
  | notRunning (run : RunState)
  deriving DecidableEq, Repr

/-- Why an instruction has no meaning. -/
inductive Refusal where
  /-- Raised by `exec` for an instruction that has no meaning yet; no arm of `exec` raises it in this model. Safe. -/
  | notModelled (mnemonic : String)
  deriving DecidableEq, Repr

/-- The answer of one step. -/
abbrev Outcome := Host.Outcome State Fault Refusal

end Sys2Proof.Machine
end

