-- ==== Sys2Proof/Machine/Ops.lean ====
section
/-! DEFINITION. The named operations over memory, the register file, the stack and the special registers, and taking a fault:
every meaning is written with these (spec/10_state.md, spec/20_memory.md, spec/60_exceptions.md). -/

namespace Sys2Proof.Machine

/-! ### One update per piece of state -/

def State.setRegs (s : State) (r : List Byte) : State := { s with regs := r }
def State.setPc (s : State) (pc : Nat) : State := { s with pc := pc }
def State.setSp (s : State) (sp : Int) : State := { s with sp := sp }
def State.setFl (s : State) (fl : Byte) : State := { s with fl := fl }
def State.setMem (s : State) (m : Memory) : State := { s with mem := m }
def State.setRun (s : State) (r : RunState) : State := { s with run := r }

/-- The opcode byte goes to `ir` (rules R28, R82). -/
def State.latchOpcode (s : State) (opcode : Byte) : State := { s with ir := opcode }

/-- The two operand bytes are latched for this step (rules R34, R84). -/
def State.latchOperands (s : State) (a b : Byte) : State := { s with opA := a, opB := b }

/-- `emit(v)`: the output trace grows by one value at its end (rules R15, R32). -/
def State.emit (s : State) (v : Byte) : State := { s with out := s.out ++ [v] }

/-! ### Raising and taking a fault -/

/-- What `raise E(info)` names (rule R14). -/
structure Raise where
  kind   : FaultKind
  detail : Detail
  deriving DecidableEq, Repr

/-- Taking a fault: nothing changes but the run state and the fault record (rules R31, R202). This is the core's whole
"trap entry": no vector, no handler, no mode, no saved state beyond the record (rule R204), and there is no return (rule R205). -/
def takeFault (r : FaultRecord) (s : State) : State :=
  { s with run := .faulted, fault := some r }

/-- The record of a fault raised inside an instruction: its address, its opcode and both operand bytes (rules R202, R203). -/
def instrRecord (r : Raise) (s : State) : FaultRecord where
  kind   := r.kind
  pc     := s.pc
  opcode := s.ir
  a      := some s.opA
  b      := some s.opB
  detail := r.detail

/-- The record of a fault raised before both operands were fetched (rules R202, R203). -/
def fetchRecord (r : Raise) (s : State) : FaultRecord where
  kind   := r.kind
  pc     := s.pc
  opcode := s.ir
  a      := none
  b      := none
  detail := r.detail

/-- The end of an instruction begun in `s`: its new state, or, where it raised, `s` itself with the fault taken, so that none of
its writes takes effect (rules R14, R202). -/
def commit (s : State) (result : Except Raise State) : Outcome :=
  match result with
  | .ok t => .next t
  | .error r => .next (takeFault (instrRecord r s) s)

/-! ### The register file -/

/-- Register `i` of a file, none where `i` names no register (rule R21; the file's length is `NREGS`, rule R9). -/
def regRead (f : List Byte) (i : Byte) : Option Byte := f[i.toNat]?

/-- The file with register `i` written, none where `i` names no register (rule R21). -/
def regWrite (f : List Byte) (i v : Byte) : Option (List Byte) :=
  if i.toNat < f.length then some (f.set i.toNat v) else none

/-- An index at or above `NREGS` raises OutOfBounds(register i) (rule R21). -/
def badRegister (i : Byte) : Raise := ⟨.outOfBounds, .register i⟩

/-- The read `x[i]` (rules R12, R21). -/
def readReg (s : State) (i : Byte) : Except Raise Byte :=
  match regRead s.regs i with
  | some v => .ok v
  | none => .error (badRegister i)

/-- The write `x[i] <- v` (rules R12, R21). -/
def writeReg (s : State) (i v : Byte) : Except Raise State :=
  match regWrite s.regs i v with
  | some r => .ok (s.setRegs r)
  | none => .error (badRegister i)

/-- `check i < NREGS` (rules R141, R150). -/
def checkReg (s : State) (i : Byte) : Except Raise Unit :=
  match regRead s.regs i with
  | some _ => .ok ()
  | none => .error (badRegister i)

/-! ### Memory -/

/-- The cell `M[a]`: the listed value, or the reset contents (rule R29). -/
def readByte : Memory → Nat → Byte
  | [], _ => Config.memReset
  | (k, v) :: m, a => if k = a then v else readByte m a

/-- Memory without an entry for `a`, which then reads as at reset. -/
def eraseCell (m : Memory) (a : Nat) : Memory :=
  m.filter fun c => c.1 != a

/-- An entry put where its address belongs. -/
def insertCell (a : Nat) (v : Byte) : Memory → Memory
  | [] => [(a, v)]
  | c :: m => if a < c.1 then (a, v) :: c :: m else c :: insertCell a v m

/-- `M[a] <- v`, keeping the canonical form (rule R42; log entry 9). -/
def writeByte (m : Memory) (a : Nat) (v : Byte) : Memory :=
  if v = Config.memReset then eraseCell m a else insertCell a v (eraseCell m a)

/-- The bytes written one after the other from address `k` upwards; a byte past the last cell is dropped (it has no cell). -/
def storeBytes (m : Memory) (k : Nat) : List Byte → Memory
  | [] => m
  | v :: bytes => storeBytes (if k < Config.memSize then writeByte m k v else m) (k + 1) bytes

/-- An address outside 0 to 255 raises OutOfBounds(address k) (rules R41, R42). -/
def badAddress (k : Int) : Raise := ⟨.outOfBounds, .address k⟩

/-- `0 <= addr <= 255` (rules R13, R41, R42): no aliasing, no clamping. -/
def inMemory (addr : Int) : Bool := decide (0 ≤ addr ∧ addr < Config.memSize)

/-- `MemRead(addr, 1)` (rules R13, R41). -/
def memRead (s : State) (addr : Int) : Except Raise Byte :=
  if inMemory addr then .ok (readByte s.mem addr.toNat) else .error (badAddress addr)

/-- `MemWrite(addr, 1, v)` (rules R13, R42). -/
def memWrite (s : State) (addr : Int) (v : Byte) : Except Raise State :=
  if inMemory addr then .ok (s.setMem (writeByte s.mem addr.toNat v)) else .error (badAddress addr)

/-! ### The stack protocol shared by PUSH, CALL and by POP, RET -/

/-- Write at `sp`, then `sp <- sp - 1` (rules R26, R140, R150). -/
def pushByte (s : State) (v : Byte) : Except Raise State := do
  let t ← memWrite s s.sp v
  return t.setSp (s.sp - 1)

/-- Read at `sp + 1`, write 0 there, then `sp <- sp + 1` (rules R26, R141, R151). -/
def popByte (s : State) : Except Raise (Byte × State) := do
  let v ← memRead s (s.sp + 1)
  let t ← memWrite s (s.sp + 1) 0#8
  return (v, t.setSp (s.sp + 1))

end Sys2Proof.Machine
end

