-- ==== Sys2Proof/Machine/Operands.lean ====
section
/-! DEFINITION. The operand forms of rules R61 and R63: two register operands, one register operand, an immediate byte, a
register that holds a jump target, and the pc after a sequential instruction. -/

namespace Sys2Proof.Machine

/-- Both register operands of an OP_R_R instruction: `x[a]` is read, and checked, before `x[b]` (rules R112 to R114, R131, R207). -/
def readPair (s : State) (a b : Byte) : Except Raise (Byte × Byte) := do
  let va ← readReg s a
  let vb ← readReg s b
  return (va, vb)

/-- An immediate operand is the whole byte: zero-extended, never sign-extended, scaled or shifted (rules R11, R63). -/
def immediate (imm : Byte) : Byte := imm

/-- The address a register operand holds: a jump target or the address of ST, an absolute address 0 to 255 (rules R63, R157). -/
def readTarget (s : State) (a : Byte) : Except Raise Nat := do
  let v ← readReg s a
  return v.toNat

/-- `pc <- pc + width`, the next instruction's opcode byte; pc never wraps (rules R25, R86). -/
def advance (s : State) (width : Nat) : State := s.setPc (s.pc + width)

end Sys2Proof.Machine
end

