-- ==== Sys2Proof/Machine/Alu.lean ====
section
/-! DEFINITION. The ALU (spec/41_alu.md section 1): nine operations on two register indices. Only ADD is reached by an
instruction (rule R111); the others are part of the block and are modelled at its interface. -/

namespace Sys2Proof.Machine

/-- The result of a binary operation on `x[i]` and `x[j]`; `j` is the divisor's index for MOD (rules R101 to R109).
NOT is unary and handled before the second read (rule R106). -/
def aluBinary (op : AluOp) (j va vb : Byte) : Except Raise Byte :=
  match op with
  | .add => .ok (va + vb)
  | .sub => .ok (va - vb)
  | .and => .ok (va &&& vb)
  | .or => .ok (va ||| vb)
  | .xor => .ok (va ^^^ vb)
  | .shl => .ok (va <<< vb.toNat)
  | .shr => .ok (va >>> vb.toNat)
  | .mod => if vb = 0#8 then .error ⟨.divisionByZero, .register j⟩ else .ok (va % vb)
  | .not => .ok (~~~va)
  | .unrecognized label => .error ⟨.unsupportedOperation (.unrecognized label), .none⟩

/-- `alu(op, i, j)`: reads `x[i]`, then `x[j]` unless the operation is NOT, writes the result into `x[i]` and nothing else
(rule R100). A tag outside the nine raises UnsupportedOperation(op), with no detail (rules R31, R110), whatever the indices
(log entry 5). -/
def alu (op : AluOp) (i j : Byte) (s : State) : Except Raise State :=
  match op with
  | .unrecognized label => .error ⟨.unsupportedOperation (.unrecognized label), .none⟩
  | .not => do
    let va ← readReg s i
    writeReg s i (~~~va)
  | op => do
    let (va, vb) ← readPair s i j
    let r ← aluBinary op j va vb
    writeReg s i r

/-- The ALU interface used outside an instruction (rule R203). A raise is taken as every fault is.

What the spec leaves open here is the model's choice:
* in which run states the interface acts (rules R87, R109, R203 are silent): in RUNNING only, and in HALTED, ENDED and FAULTED it
  changes nothing, so that a terminal state stays as it is and a record once set stays set (log entry 13);
* the record of an OutOfBounds raised here: the indices `i` and `j` stand in place of `a` and `b`, as rule R203 says for the other
  two kinds, and `j` does so for NOT too, which does not read it (log entry 14);
* the record's `pc` and `opcode`, which have no instruction to come from: they are arguments, so nothing constrains them
  (log entry 6). -/
def aluUse (pc : Nat) (opcode : Byte) (op : AluOp) (i j : Byte) (s : State) : State :=
  match s.run with
  | .running =>
    match alu op i j s with
    | .ok t => t
    | .error r => takeFault ⟨r.kind, pc, opcode, some i, some j, r.detail⟩ s
  | .halted | .ended | .faulted => s

end Sys2Proof.Machine
end

