-- ==== Sys2Proof/Machine/Flags.lean ====
section
/-! DEFINITION. The flags register: the value CMP computes and the tests JEQ and JNE make (rules R27, R114, R153, R154). -/

namespace Sys2Proof.Machine

/-- EQ(0b001): bit 0, E (rule R27). -/
def flagEq : Byte := 0b00000001#8

/-- GT(0b010): bit 1, G (rule R27). -/
def flagGt : Byte := 0b00000010#8

/-- LT(0b100): bit 2, L (rule R27). -/
def flagLt : Byte := 0b00000100#8

/-- The whole of `fl` after CMP: an unsigned comparison (rules R11, R114). -/
def compareFlags (va vb : Byte) : Byte :=
  if va.toNat = vb.toNat then flagEq
  else if vb.toNat < va.toNat then flagGt
  else flagLt

/-- JEQ is taken when the whole register equals EQ (rule R153). -/
def jeqTaken (fl : Byte) : Bool := fl == flagEq

/-- JNE is taken when the whole register equals GT or LT: "FL==GT or FL==LT", not "FL != EQ" (rule R154). -/
def jneTaken (fl : Byte) : Bool := fl == flagGt || fl == flagLt

end Sys2Proof.Machine
end

