-- ==== Sys2Proof/Machine/Arithmetic.lean ====
section
/-! DEFINITION. ADD, MULT, CMP, ADDI (spec/41_alu.md section 2). -/

namespace Sys2Proof.Machine

/-- ADD: `x[a] <- (x[a] + x[b]) mod 256` through the ALU, `pc <- pc + 3` (rule R112). -/
def execAdd (a b : Byte) (s : State) : Outcome :=
  commit s do
    let t ← alu .add a b s
    return advance t 3

/-- MULT: `x[a] <- (x[a] * x[b]) mod 256`, `pc <- pc + 3` (rule R113). -/
def execMult (a b : Byte) (s : State) : Outcome :=
  commit s do
    let (va, vb) ← readPair s a b
    let t ← writeReg s a (va * vb)
    return advance t 3

/-- CMP: `fl` is exactly one of EQ, GT, LT; no register is written; `pc <- pc + 3` (rule R114). -/
def execCmp (a b : Byte) (s : State) : Outcome :=
  commit s do
    let (va, vb) ← readPair s a b
    return advance (s.setFl (compareFlags va vb)) 3

/-- ADDI: `x[a] <- (x[a] + imm) mod 256`, `pc <- pc + 3` (rule R115). -/
def execAddi (a imm : Byte) (s : State) : Outcome :=
  commit s do
    let va ← readReg s a
    let t ← writeReg s a (va + immediate imm)
    return advance t 3

end Sys2Proof.Machine
end

