-- ==== Sys2Proof/Machine/ControlFlow.lean ====
section
/-! DEFINITION. CALL, RET, JMP, JEQ, JNE (spec/44_control_flow.md). Every target is an absolute address held in a register or
popped (rule R157). -/

namespace Sys2Proof.Machine

/-- The return address CALL saves, `pc + 2`, as the byte that register 5 and the stack hold (rule R150). It is at most 255
wherever a step executes CALL, because the operand fetch succeeded only at pc <= 253 (log entry 12). -/
def returnAddress (s : State) : Byte := BitVec.ofNat 8 (s.pc + 2)

/-- CALL: `x[5] <- pc + 2`, push it, then `pc <- x[a]`, read after the write of `x[5]` (rule R150, decision D11). -/
def execCall (a : Byte) (s : State) : Outcome :=
  commit s do
    checkReg s a
    let t ← writeReg s Config.link (returnAddress s)
    let u ← pushByte t (returnAddress s)
    let target ← readTarget u a
    return u.setPc target

/-- RET: pop into `x[5]`, clear the cell, `pc <- x[5]` (rule R151). -/
def execRet (s : State) : Outcome :=
  commit s do
    let (v, t) ← popByte s
    let u ← writeReg t Config.link v
    let target ← readTarget u Config.link
    return u.setPc target

/-- JMP: `pc <- x[a]` (rule R152). -/
def execJmp (a : Byte) (s : State) : Outcome :=
  commit s do
    let target ← readTarget s a
    return s.setPc target

/-- The conditional jumps: the register is read, and so checked, only when the jump is taken (rules R153, R154, decision D3). -/
def jumpIf (taken : Bool) (a : Byte) (s : State) : Except Raise State :=
  if taken then do
    let target ← readTarget s a
    return s.setPc target
  else return advance s 2

/-- JEQ: taken when `fl` is EQ (rule R153). -/
def execJeq (a : Byte) (s : State) : Outcome :=
  commit s (jumpIf (jeqTaken s.fl) a s)

/-- JNE: taken when `fl` is GT or LT (rule R154). -/
def execJne (a : Byte) (s : State) : Outcome :=
  commit s (jumpIf (jneTaken s.fl) a s)

end Sys2Proof.Machine
end

