-- ==== Sys2Proof/Machine/DataMovement.lean ====
section
/-! DEFINITION. LDI and ST (spec/42_data_movement.md). -/

namespace Sys2Proof.Machine

/-- LDI: `x[a] <- imm`, `pc <- pc + 3`; memory is not written (rule R130, conflict C7). -/
def execLdi (a imm : Byte) (s : State) : Outcome :=
  commit s do
    let t ← writeReg s a (immediate imm)
    return advance t 3

/-- ST: `M[x[a]] <- x[b]`, `pc <- pc + 3` (rule R131). -/
def execSt (a b : Byte) (s : State) : Outcome :=
  commit s do
    let addr ← readTarget s a
    let v ← readReg s b
    let t ← memWrite s addr v
    return advance t 3

end Sys2Proof.Machine
end

