-- ==== Sys2Proof/Machine/Stack.lean ====
section
/-! DEFINITION. PUSH and POP (spec/43_stack.md). -/

namespace Sys2Proof.Machine

/-- PUSH: `M[sp] <- x[a]`, `sp <- sp - 1`, `pc <- pc + 2`; the register is checked before the stack address (rule R140). -/
def execPush (a : Byte) (s : State) : Outcome :=
  commit s do
    let v ← readReg s a
    let t ← pushByte s v
    return advance t 2

/-- POP: `x[a] <- M[sp+1]`, `M[sp+1] <- 0`, `sp <- sp + 1`, `pc <- pc + 2`; the register is checked before the stack address
(rule R141). -/
def execPop (a : Byte) (s : State) : Outcome :=
  commit s do
    checkReg s a
    let (v, t) ← popByte s
    let u ← writeReg t a v
    return advance u 2

end Sys2Proof.Machine
end

