-- ==== Sys2Proof/Machine/System.lean ====
section
/-! DEFINITION. PRN and HLT (spec/45_system.md). -/

namespace Sys2Proof.Machine

/-- PRN: `emit(x[a])`, `pc <- pc + 2` (rule R170). -/
def execPrn (a : Byte) (s : State) : Outcome :=
  commit s do
    let v ← readReg s a
    return advance (s.emit v) 2

/-- HLT: `run <- HALTED`, nothing else, pc keeps the HLT's address (rule R171, decision D10). -/
def execHlt (s : State) : Outcome :=
  commit s (.ok (s.setRun .halted))

end Sys2Proof.Machine
end

