-- ==== Sys2Proof/Syntax.lean ====
section
/-! DEFINITION. The instructions: one constructor per row of spec/opcode_table.json (rule R64), in the table's order.
A register operand is a whole byte (rule R63: the index is not masked), an immediate is a whole byte. -/

namespace Sys2Proof

/-- The 15 instructions of rule R64. `a` and `b` are the operand bytes at pc+1 and pc+2 (rule R15). -/
inductive Instr where
  /-- ADD Ra, Rb (0xA0, rule R112) -/
  | add (a b : Byte)
  /-- MULT Ra, Rb (0xA2, rule R113) -/
  | mult (a b : Byte)
  /-- PRN Ra (0x47, rule R170) -/
  | prn (a : Byte)
  /-- LDI Ra, imm (0x82, rule R130) -/
  | ldi (a imm : Byte)
  /-- HLT (0x01, rule R171) -/
  | hlt
  /-- PUSH Ra (0x45, rule R140) -/
  | push (a : Byte)
  /-- POP Ra (0x46, rule R141) -/
  | pop (a : Byte)
  /-- CALL Ra (0x50, rule R150) -/
  | call (a : Byte)
  /-- RET (0x11, rule R151) -/
  | ret
  /-- CMP Ra, Rb (0xA7, rule R114) -/
  | cmp (a b : Byte)
  /-- JMP Ra (0x54, rule R152) -/
  | jmp (a : Byte)
  /-- JEQ Ra (0x55, rule R153) -/
  | jeq (a : Byte)
  /-- JNE Ra (0x56, rule R154) -/
  | jne (a : Byte)
  /-- ADDI Ra, imm (0x88, rule R115) -/
  | addi (a imm : Byte)
  /-- ST Ra, Rb (0x84, rule R131) -/
  | st (a b : Byte)
  deriving DecidableEq, Repr

end Sys2Proof
end

