-- ==== Sys2Proof/Decode.lean ====
section
/-! DEFINITION. The dispatch table, the decoder and the encoder (spec/30_encoding.md). -/

namespace Sys2Proof

/-- A row of the dispatch table: one of the four formats of rule R61, with the instruction it builds from its operand bytes. -/
inductive Format where
  /-- `OP`: one byte, both slots unused -/
  | op (i : Instr)
  /-- `OP_R`: two bytes, `a` a register index -/
  | opR (f : Byte → Instr)
  /-- `OP_R_R`: three bytes, `a` and `b` register indices -/
  | opRR (f : Byte → Byte → Instr)
  /-- `OP_R_I`: three bytes, `a` a register index and `b` an immediate -/
  | opRI (f : Byte → Byte → Instr)

/-- The dispatch table (rules R64, R66, R88): an exact match on all 8 bits of the opcode byte; every other byte has no entry. -/
def dispatch (opcode : Byte) : Option Format :=
  match opcode with
  | 0xA0#8 => some (.opRR .add)
  | 0xA2#8 => some (.opRR .mult)
  | 0x47#8 => some (.opR .prn)
  | 0x82#8 => some (.opRI .ldi)
  | 0x01#8 => some (.op .hlt)
  | 0x45#8 => some (.opR .push)
  | 0x46#8 => some (.opR .pop)
  | 0x50#8 => some (.opR .call)
  | 0x11#8 => some (.op .ret)
  | 0xA7#8 => some (.opRR .cmp)
  | 0x54#8 => some (.opR .jmp)
  | 0x55#8 => some (.opR .jeq)
  | 0x56#8 => some (.opR .jne)
  | 0x88#8 => some (.opRI .addi)
  | 0x84#8 => some (.opRR .st)
  | _ => none

/-- The instruction a table row makes of the two operand slots, which are always both passed; the unused ones are ignored (rule R62). -/
def Format.build (f : Format) (a b : Byte) : Instr :=
  match f with
  | .op i => i
  | .opR g => g a
  | .opRR g | .opRI g => g a b

/-- The encoded length of a format in bytes (rule R61). -/
def Format.width : Format → Nat
  | .op _ => 1
  | .opR _ => 2
  | .opRR _ | .opRI _ => 3

/-- Why bytes are not an instruction. -/
inductive DecodeError where
  /-- The first byte has no dispatch entry (rule R66). -/
  | unknownOpcode (opcode : Byte)
  /-- There are fewer bytes than the instruction's encoded length (rule R68). -/
  | truncated
  deriving DecidableEq, Repr

/-- The instruction a table row makes of the bytes after the opcode, as many as its length says, and the bytes left (rule R68). -/
def Format.parse (f : Format) (rest : List Byte) : Except DecodeError (Instr × List Byte) :=
  match f, rest with
  | .op i, rest => .ok (i, rest)
  | .opR g, a :: rest => .ok (g a, rest)
  | .opRR g, a :: b :: rest => .ok (g a b, rest)
  | .opRI g, a :: b :: rest => .ok (g a b, rest)
  | _, _ => .error .truncated

/-- The instruction at the head of a byte sequence and the bytes after it, in increasing address order (rules R44, R60, R68). -/
def decode : List Byte → Except DecodeError (Instr × List Byte)
  | [] => .error .truncated
  | opcode :: rest =>
    match dispatch opcode with
    | none => .error (.unknownOpcode opcode)
    | some f => f.parse rest

/-- The opcode byte of each instruction (rule R64). -/
def Instr.opcode : Instr → Byte
  | .add _ _ => 0xA0#8
  | .mult _ _ => 0xA2#8
  | .prn _ => 0x47#8
  | .ldi _ _ => 0x82#8
  | .hlt => 0x01#8
  | .push _ => 0x45#8
  | .pop _ => 0x46#8
  | .call _ => 0x50#8
  | .ret => 0x11#8
  | .cmp _ _ => 0xA7#8
  | .jmp _ => 0x54#8
  | .jeq _ => 0x55#8
  | .jne _ => 0x56#8
  | .addi _ _ => 0x88#8
  | .st _ _ => 0x84#8

/-- The operand bytes of each instruction, in increasing address order (rules R44, R61). -/
def Instr.operands : Instr → List Byte
  | .add a b | .mult a b | .cmp a b | .st a b => [a, b]
  | .ldi a imm | .addi a imm => [a, imm]
  | .prn a | .push a | .pop a | .call a | .jmp a | .jeq a | .jne a => [a]
  | .hlt | .ret => []

/-- The bytes of an instruction: the opcode, then its operands and nothing for an unused slot (rules R60, R69). -/
def encode (i : Instr) : List Byte :=
  i.opcode :: i.operands

/-- The encoded length of an opcode byte that has a table entry (rule R68: a function of the opcode byte alone). -/
def lengthOf (opcode : Byte) : Option Nat :=
  (dispatch opcode).map Format.width

/-- The three bytes of an instruction given as the opcode table numbers its bits: byte `k` is bits `8k+7` to `8k`, and every
bit at or above `nbits` is 0. Three bytes is the longest instruction. -/
def wordBytes (nbits w : Nat) : List Byte :=
  let v := w % 2 ^ nbits
  [BitVec.ofNat 8 v, BitVec.ofNat 8 (v / 256), BitVec.ofNat 8 (v / 65536)]

/-- The decoder's answer on an instruction given as one number (the host's check of the opcode table). -/
def decodeTableWord (nbits w : Nat) : Option Instr :=
  match decode (wordBytes nbits w) with
  | .ok (i, _) => some i
  | .error _ => none

end Sys2Proof
end

