-- ==== Sys2Proof/Machine/Fetch.lean ====
section
/-! DEFINITION. The part of a step before the instruction's own rule: the enable, the program-end check, the opcode fetch, the
dispatch and the operand fetch (spec/40_execution_loop.md, rules R80 to R84 and R90). -/

namespace Sys2Proof.Machine

/-- Both operand slots, `a` before `b`, whatever the width (rules R62, R84). -/
def fetchOperands (s : State) : Except Raise (Byte × Byte) := do
  let a ← memRead s (s.pc + 1)
  let b ← memRead s (s.pc + 2)
  return (a, b)

/-- A fault before the instruction runs (rule R203): the record has no operands. -/
def fetchFault (r : Raise) (s : State) : Outcome :=
  .next (takeFault (fetchRecord r s) s)

/-- The opcode at pc is in `ir`: look it up, then fetch both operands, then hand the instruction over with the operands latched
(rules R83, R84, decision D9). -/
def fetchInstr (s : State) : Except Outcome (Instr × State) :=
  match dispatch s.ir with
  | none => .error (fetchFault ⟨.unknownOpcode, .none⟩ s)
  | some f =>
    match fetchOperands s with
    | .error r => .error (fetchFault r s)
    | .ok (a, b) => .ok (f.build a b, s.latchOperands a b)

/-- The instruction a step is about to run and the state it runs it in, or the step's answer where it runs none: no step is enabled
(rules R80, R87), the program has ended (rule R81), or a fetch fault. -/
def fetch (s : State) : Except Outcome (Instr × State) :=
  match s.run with
  | .running =>
    if Config.memSize ≤ s.pc then .error (.next (s.setRun .ended))
    else fetchInstr (s.latchOpcode (readByte s.mem s.pc))
  | r => .error (.fault (.notRunning r))

end Sys2Proof.Machine
end

