-- ==== Sys2Proof/Machine/Step.lean ====
section
/-! DEFINITION. One step of the machine (rule R90), and the host's placing of an instruction where the next step fetches. -/

namespace Sys2Proof.Machine

/-- One step: fetch, then run the instruction (rules R80 to R90). -/
def step (s : State) : Host.Outcome State Fault Refusal :=
  match fetch s with
  | .error o => o
  | .ok (i, t) => exec i t

/-- `s` with an instruction's bytes stored at pc, as the host's LOAD would have stored them (rule R231; log entry 8). -/
def State.withFetchWord (s : State) (nbits w : Nat) : State :=
  s.setMem (storeBytes s.mem s.pc (wordBytes nbits w))

end Sys2Proof.Machine
end

