-- ==== Sys2Proof/Machine/Loader.lean ====
section
/-! DEFINITION. The host's side of the core: LOAD, the program source, the status report (spec/70_reset_and_hazards.md rules R231 to
R234, spec/60_exceptions.md rules R200, R201; log entry 8). None of it runs during a step. -/

namespace Sys2Proof.Machine

/-- LoadError, raised by the host loader only; no run starts (rules R201, R231, R232). -/
inductive LoadError where
  /-- the source line with this number (from 1) is malformed (rule R232); that the error carries the number is log entry 8 -/
  | malformedLine (number : Nat)
  /-- the image has this many bytes, more than memory (rule R231); that the error carries the length is log entry 8 -/
  | imageTooLong (length : Nat)
  deriving DecidableEq, Repr

/-- The numeric codes of the runtime fault kinds (rule R200, decision D16). -/
def FaultKind.code : FaultKind → Nat
  | .unknownOpcode => 1
  | .outOfBounds => 2
  | .unsupportedOperation _ => 3
  | .divisionByZero => 4

/-- The numeric code of LoadError (rule R201). -/
def LoadError.code : LoadError → Nat := fun _ => 5

/-- LOAD: `M[k] <- image[k]` from address 0; nothing but memory changes; an image longer than memory is refused (rule R231). -/
def load (image : List Byte) (s : State) : Except LoadError State :=
  if image.length ≤ Config.memSize then .ok (s.setMem (storeBytes s.mem 0 image))
  else .error (.imageTooLong image.length)

/-- RESET, then LOAD, on the machine with `nregs` general registers: the state a run starts from (rules R9, R91, R230, R231). -/
def boot (nregs : Nat) (image : List Byte) : Except LoadError State := load image (State.resetWith nregs)

/-- The built-in default program: LDI R0, 8; PRN R0; HLT (rule R233). -/
def defaultImage : List Byte :=
  [0b10000010#8, 0b00000000#8, 0b00001000#8, 0b01000111#8, 0b00000000#8, 0b00000001#8]

/-- A source line without its `#` comment and without the white space around what is left (rule R232). -/
def lineText (line : List Char) : List Char :=
  let body := (line.takeWhile (· != '#')).dropWhile Char.isWhitespace
  (body.reverse.dropWhile Char.isWhitespace).reverse

/-- One more digit at the low end of a binary number; none once a character was no digit. -/
def addDigit (acc : Option Nat) (c : Char) : Option Nat :=
  match acc with
  | none => none
  | some n => if c = '0' then some (2 * n) else if c = '1' then some (2 * n + 1) else none

/-- The value of a string of the digits 0 and 1, most significant first (rule R10); none if another character stands in it. -/
def binaryValue (text : List Char) : Option Nat :=
  text.foldl addDigit (some 0)

/-- One source line: nothing for a blank one, a byte, or malformed (rule R232). -/
def parseLine (number : Nat) (line : List Char) : Except LoadError (Option Byte) :=
  match lineText line with
  | [] => .ok none
  | text =>
    match binaryValue text with
    | some v => if v < 256 then .ok (some (BitVec.ofNat 8 v)) else .error (.malformedLine number)
    | none => .error (.malformedLine number)

/-- The image of a program source whose first line has this number (rule R232). -/
def parseFrom (number : Nat) : List (List Char) → Except LoadError (List Byte)
  | [] => .ok []
  | line :: lines => do
    let v ← parseLine number line
    let image ← parseFrom (number + 1) lines
    return v.toList ++ image

/-- The host's start of a run: the supplied program source, or the default program where none is supplied (rules R231 to R233). -/
def bootSource (nregs : Nat) (source : Option (List (List Char))) : Except LoadError State :=
  match source with
  | some lines => do
    let image ← parseFrom 1 lines
    boot nregs image
  | none => boot nregs defaultImage

/-- The readable status: the run state and, in FAULTED, the fault record (rules R7, R234). -/
def status (s : State) : RunState × Option FaultRecord :=
  match s.run with
  | .faulted => (.faulted, s.fault)
  | r => (r, none)

end Sys2Proof.Machine
end

