-- ==== Sys2Proof/Safety.lean ====
section
/-! DEFINITION. What the claims call a good state, a run and a safe run. -/

namespace Sys2Proof.Machine

/-- The ranges the spec gives the special registers, and memory's canonical form: pc in 0 to 256 (rule R25), sp in -1 to 255
(rule R26), fl one of its four values (rule R27), every cell inside the 256 (rule R29); and `NREGS` one of the two values rule R9
allows. -/
structure State.InRange (s : State) : Prop where
  mem_wf : s.mem.wf
  pc_le  : s.pc ≤ 256
  sp_ge  : -1 ≤ s.sp
  sp_le  : s.sp ≤ 255
  nregs_eq : s.nregs = 7 ∨ s.nregs = 8
  fl_mem : s.fl = 0#8 ∨ s.fl = 0b001#8 ∨ s.fl = 0b010#8 ∨ s.fl = 0b100#8

/-- What each run state says of the rest of the state: the record exists exactly in FAULTED and names the instruction at pc and one
of the two kinds a program can raise (rules R31, R111, R202); HALTED has pc at a HLT (rules R92, R171); ENDED has pc = 256
(rules R81, R92). -/
def State.RunCoherent (s : State) : Prop :=
  match s.run with
  | .running => s.fault = none
  | .halted => s.fault = none ∧ s.pc ≤ 253 ∧ readByte s.mem s.pc = 0x01#8
  | .ended => s.fault = none ∧ s.pc = 256
  | .faulted => ∃ r, s.fault = some r ∧ r.pc = s.pc ∧ s.pc ≤ 255 ∧ r.opcode = readByte s.mem s.pc ∧
      (r.kind = .unknownOpcode ∨ r.kind = .outOfBounds)

/-- A run: states one step apart (rule R91). -/
inductive Steps : State → State → Prop where
  | refl (s : State) : Steps s s
  | tail {s t u : State} : Steps s t → step t = .next u → Steps s u

/-- A state some program's run reaches from RESET and LOAD on the machine with `nregs` registers (rules R9, R91). -/
def Reachable (nregs : Nat) (s : State) : Prop :=
  ∃ image start, boot nregs image = .ok start ∧ Steps start s

/-- A safe state: no fault has been raised (rule R30). -/
def State.Safe (s : State) : Prop := s.run ≠ .faulted

end Sys2Proof.Machine
end

