-- ==== Sys2Proof/WellFormed.lean ====
section
/-! DEFINITION. Which instructions are well formed.

As an ENCODING every term of `Instr` is well formed: "No operand byte value is an illegal encoding" (rule R67), so the
decoder, the encoder and the step treat all of them. What the spec does call valid or not is a register operand, which
"is valid only below `NREGS`" (rule R63): `Instr.wf` is that check, made at run time on use (rule R21) and never by the decoder. -/

namespace Sys2Proof

/-- The operand bytes the instruction uses as register indices (the formats of rule R61; the immediates of LDI and ADDI are none). -/
def Instr.registers : Instr → List Byte
  | .add a b | .mult a b | .cmp a b | .st a b => [a, b]
  | .prn a | .push a | .pop a | .call a | .jmp a | .jeq a | .jne a => [a]
  | .ldi a _ | .addi a _ => [a]
  | .hlt | .ret => []

/-- Every register operand names one of `n` registers (rules R21, R63). An ill-formed instruction still decodes and runs: it
faults OutOfBounds when it uses the register (rule R67). -/
def Instr.wf (n : Nat) (i : Instr) : Bool :=
  i.registers.all fun r => decide (r.toNat < n)

end Sys2Proof
end

