-- ==== Sys2Proof/Certificates/Slice0/Obligations.lean ====
section
/-! DEFINITION. The statements for the provers, written from the numbered rules of spec/. An equation
`exec i s = .next { s with … }` says the whole effect at once: every field that is not named keeps its value. -/

namespace Sys2Proof.Claims

open Sys2Proof.Machine

/-- The cell at an address. -/
abbrev byteAt (s : State) (k : Nat) : Byte := readByte s.mem k

/-- `s` with a fault taken: the run state and the record, nothing else (rules R31, R202). -/
abbrev faulted (s : State) (kind : FaultKind) (opcode : Byte) (a b : Option Byte) (d : Detail) : State :=
  { s with run := .faulted, fault := some ⟨kind, s.pc, opcode, a, b, d⟩ }

/-- The instruction raises OutOfBounds with this detail: its answer is `s` with the fault taken, the record naming the instruction
and both its operand bytes (rule R203). -/
abbrev Raises (i : Instr) (s : State) (d : Detail) : Prop :=
  exec i s = .next (faulted s .outOfBounds s.ir (some s.opA) (some s.opB) d)

/-- An instruction with this opcode byte at address 254 or 255 faults at operand fetch: the first address beyond memory is 256 either
way, and the record has no operands (rules R84, R203). -/
def FaultsAtOperandFetch (opcode : Byte) : Prop :=
  ∀ s : State, s.run = .running → 254 ≤ s.pc → s.pc ≤ 255 → byteAt s s.pc = opcode →
    step s = .next (faulted { s with ir := opcode } .outOfBounds opcode none none (.address 256))

/-- The state an instruction at pc runs in: its opcode and both operand bytes latched (rules R82, R84, R85). -/
abbrev latched (s : State) : State :=
  { s with ir := byteAt s s.pc, opA := byteAt s (s.pc + 1), opB := byteAt s (s.pc + 2) }

/-- The 15 opcodes of rule R64. -/
def opcodes : List Byte :=
  [0b10100000#8, 0b10100010#8, 0b01000111#8, 0b10000010#8, 0b00000001#8, 0b01000101#8, 0b01000110#8, 0b01010000#8,
   0b00010001#8, 0b10100111#8, 0b01010100#8, 0b01010101#8, 0b01010110#8, 0b10001000#8, 0b10000100#8]

/-- The eight digits of a byte, most significant first (rule R10). -/
def digits (v : Byte) : List Char :=
  (List.range 8).map fun k => if v.getMsbD k then '1' else '0'

end Sys2Proof.Claims

open Sys2Proof Sys2Proof.Machine Sys2Proof.Claims

/-! ### Reset, load, source -/

/-- R230: what RESET leaves on a machine with `n` registers (`ir` is unspecified there, so nothing is said of it); this hardware is
the one with 7 (R9). -/
def Obligations.ResetLeavesSpecValues : Prop :=
  (∀ n : Nat, let r := State.resetWith n
    (∀ k, byteAt r k = 0#8) ∧ r.nregs = n ∧ (∀ i (h : i < r.nregs), r.regs[i] = 0#8) ∧
    r.pc = 0 ∧ r.sp = 255 ∧ r.fl = 0#8 ∧ r.run = .running ∧ r.fault = none ∧ r.out = []) ∧
  State.reset = State.resetWith 7

/-- R231: LOAD after RESET writes the image from address 0, leaves 0 everywhere else and changes nothing but memory; an image longer
than 256 bytes is refused with LoadError. That the error carries the image's length is the model's choice (log entry 8). -/
def Obligations.LoadWritesImageFromZero : Prop :=
  ∀ (n : Nat) (image : List Byte),
    (image.length ≤ 256 → ∃ t, boot n image = .ok t ∧ t = { State.resetWith n with mem := t.mem } ∧
      (∀ k (h : k < image.length), byteAt t k = image[k]) ∧ ∀ k, image.length ≤ k → byteAt t k = 0#8) ∧
    (256 < image.length → boot n image = .error (.imageTooLong image.length))

/-- R232: a line of eight binary digits, with white space and a comment around it, is that byte; a line whose text is empty is
ignored; a line with any other character in its text is malformed. Which reading of blank and comment lines is taken is log entry 8. -/
def Obligations.SourceLinesParse : Prop :=
  (∀ (n : Nat) (v : Byte) (comment : List Char),
    parseLine n ([' ', '\t'] ++ digits v ++ [' '] ++ '#' :: comment) = .ok (some v)) ∧
  (∀ (n : Nat) (comment : List Char), parseLine n ([' '] ++ '#' :: comment) = .ok none) ∧
  (∀ (n : Nat) (line : List Char) (c : Char), c ∈ lineText line → c ≠ '0' → c ≠ '1' →
    parseLine n line = .error (.malformedLine n))

/-! ### Encoding -/

/-- Decode and encode agree on every instruction at every operand value, in both directions: no bit of an encoding is dropped, and no
other byte sequence decodes to an instruction (R60, R61, R64, R68). -/
def Obligations.DecodeEncodeAgree : Prop :=
  (∀ (i : Instr) (rest : List Byte), decode (encode i ++ rest) = .ok (i, rest)) ∧
  (∀ (bytes rest : List Byte) (i : Instr), decode bytes = .ok (i, rest) → bytes = encode i ++ rest)

/-- R66, R83: exactly the 15 opcode bytes have a table entry; at any other byte, wherever it stands, the step raises UnknownOpcode
before any operand is fetched. -/
def Obligations.OtherBytesAreUnknownOpcode : Prop :=
  (∀ opcode : Byte, (dispatch opcode).isSome ↔ opcode ∈ opcodes) ∧
  (∀ (opcode : Byte) (rest : List Byte), opcode ∉ opcodes → decode (opcode :: rest) = .error (.unknownOpcode opcode)) ∧
  (∀ s : State, s.run = .running → s.pc ≤ 255 → byteAt s s.pc ∉ opcodes →
    step s = .next (faulted { s with ir := byteAt s s.pc } .unknownOpcode (byteAt s s.pc) none none .none))

/-- A few words of R64 written out bit by bit, one or more a family. -/
def Obligations.WrittenOutWordsDecode : Prop :=
  decode [0b10100000#8, 1#8, 2#8] = .ok (.add 1#8 2#8, []) ∧ decode [0b10001000#8, 0#8, 10#8] = .ok (.addi 0#8 10#8, []) ∧
  decode [0b10000100#8, 1#8, 0#8] = .ok (.st 1#8 0#8, []) ∧ decode [0b01000110#8, 2#8] = .ok (.pop 2#8, []) ∧
  decode [0b00010001#8] = .ok (.ret, []) ∧ decode [0b01010110#8, 200#8] = .ok (.jne 200#8, []) ∧
  decode [0b01000111#8, 0#8] = .ok (.prn 0#8, [])

/-- R65: for every opcode bits [7:6] are the encoded length minus 1, bit 4 is 1 exactly for the instructions that set pc themselves,
bit 5 exactly for ADD, MULT and CMP. -/
def Obligations.OpcodeBitsRegular : Prop :=
  ∀ i : Instr, lengthOf i.opcode = some (encode i).length ∧
    (i.opcode.extractLsb' 6 2).toNat + 1 = (encode i).length ∧
    (i.opcode.getLsbD 4 = true ↔ (∃ a, i = .call a) ∨ i = .ret ∨ (∃ a, i = .jmp a) ∨ (∃ a, i = .jeq a) ∨ ∃ a, i = .jne a) ∧
    (i.opcode.getLsbD 5 = true ↔ (∃ a b, i = .add a b) ∨ (∃ a b, i = .mult a b) ∨ ∃ a b, i = .cmp a b)

/-- R62: the byte in an unused slot does not matter to the instruction. -/
def Obligations.UnusedSlotsIgnored : Prop :=
  ∀ (opcode : Byte) (f : Format), dispatch opcode = some f →
    (f.width ≤ 2 → ∀ a b b' : Byte, f.build a b = f.build a b') ∧
    (f.width = 1 → ∀ a a' b b' : Byte, f.build a b = f.build a' b')

/-! ### The step -/

/-- When the bytes at pc decode to an instruction, the step is `exec` of it, run with pc still at its opcode and the three fetched
bytes latched, provided both operand slots are in memory (R82, R84, R85, R90). -/
def Obligations.StepRunsDecodedInstruction : Prop :=
  ∀ (s : State) (i : Instr) (rest : List Byte), s.run = .running → s.pc ≤ 253 →
    decode [byteAt s s.pc, byteAt s (s.pc + 1), byteAt s (s.pc + 2)] = .ok (i, rest) →
    step s = exec i (latched s)

/-- R84, R245: for every known opcode, whatever its width, both slots are fetched: at 253 or lower the instruction gets them, at 254
or 255 the step faults OutOfBounds(address 256). -/
def Obligations.OperandFetchAlwaysBothSlots : Prop :=
  ∀ (s : State) (f : Format), s.run = .running → dispatch (byteAt s s.pc) = some f →
    (s.pc ≤ 253 → step s = exec (f.build (byteAt s (s.pc + 1)) (byteAt s (s.pc + 2))) (latched s)) ∧
    (254 ≤ s.pc → s.pc ≤ 255 →
      step s = .next (faulted { s with ir := byteAt s s.pc } .outOfBounds (byteAt s s.pc) none none (.address 256)))

/-- R81: beyond memory the step ends the run and changes nothing else. -/
def Obligations.ProgramEndEndsRun : Prop :=
  ∀ s : State, s.run = .running → 256 ≤ s.pc → step s = .next { s with run := .ended }

/-- R80, R87, R250: every RUNNING state has a next state, and no other state has one. That the model answers `notRunning` there is
log entry 4. -/
def Obligations.StepEnabledExactlyWhenRunning : Prop :=
  ∀ s : State, ((∃ t, step s = .next t) ↔ s.run = .running) ∧
    (s.run ≠ .running → step s = .fault (.notRunning s.run))

/-- R87: HALTED, ENDED and FAULTED are terminal, no step is enabled in them, and absorbing. -/
def Obligations.TerminalStatesAbsorb : Prop :=
  ∀ s : State, s.run ≠ .running → (∀ t, step s ≠ .next t) ∧ ∀ t, Steps s t → t = s

/-! ### Invariants and whole-machine rules -/

/-- R25, R26, R27, R29: pc stays in 0 to 256, sp in -1 to 255, fl one of 0, 1, 2, 4, memory canonical and inside its 256 cells, and
`NREGS` 7 or 8 (R9). -/
def Obligations.StepKeepsRanges : Prop :=
  ∀ s t : State, s.InRange → step s = .next t → t.InRange

/-- R9, R20: the number of registers is the machine's, not the run's: no step changes it. -/
def Obligations.StepKeepsRegisterCount : Prop :=
  ∀ s t : State, step s = .next t → t.nregs = s.nregs

/-- R9, R21: more registers change only which register indices fault: a step that leaves no fault about a register index does the same
on the machine with further registers, and leaves those as they are. -/
def Obligations.MoreRegistersChangeOnlyIndexFaults : Prop :=
  ∀ (s t : State) (more : List Byte), step s = .next t → (∀ r i, t.fault = some r → r.detail ≠ .register i) →
    step { s with regs := s.regs ++ more } = .next { t with regs := t.regs ++ more }

/-- R31, R81, R92, R171, R202: the fault record exists exactly in FAULTED and names the instruction at pc; HALTED stands at a HLT;
ENDED has pc = 256. -/
def Obligations.StepKeepsRunCoherence : Prop :=
  ∀ s t : State, s.InRange → s.RunCoherent → step s = .next t → t.RunCoherent

/-- Both invariants hold after RESET. -/
def Obligations.ResetMeetsTheInvariants : Prop :=
  State.reset.InRange ∧ State.reset.RunCoherent

/-- Every state of every run of every image meets both invariants, on the machine with 7 registers and on the one with 8 (R9, R91). -/
def Obligations.ReachableStatesMeetTheInvariants : Prop :=
  ∀ (n : Nat) (s : State), n = 7 ∨ n = 8 → Reachable n s → s.InRange ∧ s.RunCoherent ∧ s.nregs = n

/-- R25, R26: in range, pc and sp are what their 9-bit registers hold, sp in two's complement. -/
def Obligations.PcAndSpFitNineBits : Prop :=
  ∀ s : State, s.InRange → (BitVec.ofNat 9 s.pc).toNat = s.pc ∧ (BitVec.ofInt 9 s.sp).toInt = s.sp

/-- R202: a step that raises changes nothing but the run state and the record (and the latches `ir`, `a`, `b`, which are not
observable; log entry 2); the record holds the instruction's address and opcode, and its operand bytes exactly when both were fetched;
and no later step changes it. -/
def Obligations.FaultsArePrecise : Prop :=
  (∀ s t : State, step s = .next t → t.run = .faulted →
    t = { s with run := .faulted, fault := t.fault, ir := t.ir, opA := t.opA, opB := t.opB } ∧
    ∃ r, t.fault = some r ∧ r.pc = s.pc ∧ r.opcode = byteAt s s.pc ∧
      (if s.pc ≤ 253 ∧ (dispatch (byteAt s s.pc)).isSome then
        r.a = some (byteAt s (s.pc + 1)) ∧ r.b = some (byteAt s (s.pc + 2))
      else r.a = none ∧ r.b = none)) ∧
  (∀ s t : State, s.run = .faulted → Steps s t → t.fault = s.fault)

/-- R43, R110, R111: what a program can raise, and where. No step raises DivisionByZero or UnsupportedOperation; an address is out of
range only as 256 at operand fetch or at POP and RET, or as -1 at PUSH and CALL. -/
def Obligations.WhatAStepCanRaise : Prop :=
  ∀ (s t : State) (r : FaultRecord), s.InRange → s.fault = none → step s = .next t → t.fault = some r →
    (r.kind = .unknownOpcode ∧ r.detail = .none ∧ r.opcode ∉ opcodes) ∨
    (r.kind = .outOfBounds ∧ r.opcode ∈ opcodes ∧
      ((∃ i : Byte, r.detail = .register i ∧ s.nregs ≤ i.toNat) ∨
       (r.detail = .address 256 ∧ (254 ≤ s.pc ∨ (s.sp = 255 ∧ r.opcode ∈ [0x46#8, 0x11#8]))) ∨
       (r.detail = .address (-1) ∧ s.sp = -1 ∧ r.opcode ∈ [0x45#8, 0x50#8])))

/-- R21, R43, R84, R207, the allowed side: at 253 or lower, an instruction whose register operands all exist, with a free cell at sp and
a filled one above it, is run and raises nothing (register 5, which CALL and RET use, exists on every machine rule R9 allows). -/
def Obligations.WellFormedInstructionsDoNotFault : Prop :=
  ∀ (s : State) (i : Instr) (rest : List Byte), s.run = .running → s.pc ≤ 253 →
    decode [byteAt s s.pc, byteAt s (s.pc + 1), byteAt s (s.pc + 2)] = .ok (i, rest) → i.wf s.nregs = true →
    5 < s.nregs → 0 ≤ s.sp → s.sp ≤ 254 → ∃ t, step s = .next t ∧ t.Safe ∧ t.fault = s.fault

/-- R27, R246: a step that changes fl executes CMP, and leaves one of its three values. -/
def Obligations.OnlyCmpChangesFlags : Prop :=
  ∀ s t : State, step s = .next t → t.fl ≠ s.fl →
    byteAt s s.pc = 0xA7#8 ∧ (t.fl = 0b001#8 ∨ t.fl = 0b010#8 ∨ t.fl = 0b100#8)

/-- R26: a step that changes sp executes PUSH or CALL (down by one) or POP or RET (up by one). -/
def Obligations.OnlyStackInstructionsMoveSp : Prop :=
  ∀ s t : State, step s = .next t → t.sp ≠ s.sp →
    (t.sp = s.sp - 1 ∧ (byteAt s s.pc = 0x45#8 ∨ byteAt s s.pc = 0x50#8)) ∨
    (t.sp = s.sp + 1 ∧ (byteAt s s.pc = 0x46#8 ∨ byteAt s s.pc = 0x11#8))

/-- R40: a step changes at most one cell: PUSH and CALL the cell at sp, POP and RET the cell at sp + 1 (to 0), ST the cell its first
register names. -/
def Obligations.OnlyStoresChangeMemory : Prop :=
  ∀ (s t : State) (k : Nat), step s = .next t → byteAt t k ≠ byteAt s k →
    (((byteAt s s.pc = 0x45#8 ∨ byteAt s s.pc = 0x50#8) ∧ (k : Int) = s.sp) ∨
     ((byteAt s s.pc = 0x46#8 ∨ byteAt s s.pc = 0x11#8) ∧ (k : Int) = s.sp + 1 ∧ byteAt t k = 0#8) ∨
     (byteAt s s.pc = 0x84#8 ∧ ∃ h : (byteAt s (s.pc + 1)).toNat < s.nregs, k = s.regs[(byteAt s (s.pc + 1)).toNat].toNat))

/-- R23: a step writes at most one register: ADD, MULT, LDI, POP and ADDI the one their first operand names, CALL and RET register 5. -/
def Obligations.OnlyNamedRegisterChanges : Prop :=
  ∀ (s t : State) (k : Nat), step s = .next t → t.regs[k]? ≠ s.regs[k]? →
    (byteAt s s.pc ∈ [0xA0#8, 0xA2#8, 0x82#8, 0x46#8, 0x88#8] ∧ k = (byteAt s (s.pc + 1)).toNat) ∨
    (byteAt s s.pc ∈ [0x50#8, 0x11#8] ∧ k = 5)

/-- R32: the output trace changes only by PRN, which appends the value of its register. -/
def Obligations.OnlyPrnAppendsOutput : Prop :=
  ∀ s t : State, step s = .next t → t.out ≠ s.out →
    byteAt s s.pc = 0x47#8 ∧ ∃ h : (byteAt s (s.pc + 1)).toNat < s.nregs,
      t.out = s.out ++ [s.regs[(byteAt s (s.pc + 1)).toNat]]

/-- R25, R94: pc reaches 256 only by a 3-byte instruction at 253 that does not fault, and no step takes it further. -/
def Obligations.PcReaches256OnlyFrom253 : Prop :=
  ∀ s t : State, s.pc ≤ 255 → step s = .next t →
    t.pc ≤ 256 ∧ (t.pc = 256 → s.pc = 253 ∧ t.run = .running ∧
      byteAt s 253 ∈ [0xA0#8, 0xA2#8, 0x82#8, 0xA7#8, 0x88#8, 0x84#8])

/-! ### Memory and the ALU -/

/-- R41, R42: in range, a write is read back, changes no other cell and nothing but memory; outside, both raise OutOfBounds(address)
with no aliasing. -/
def Obligations.MemReadAfterMemWrite : Prop :=
  ∀ (s : State) (addr : Int) (v : Byte),
    (0 ≤ addr → addr ≤ 255 →
      (memRead s addr = .ok (byteAt s addr.toNat)) ∧
      ∃ t, memWrite s addr v = .ok t ∧ t = { s with mem := t.mem } ∧
        ∀ k : Nat, byteAt t k = if (k : Int) = addr then v else byteAt s k) ∧
    (addr < 0 ∨ 255 < addr →
      memRead s addr = .error ⟨.outOfBounds, .address addr⟩ ∧ memWrite s addr v = .error ⟨.outOfBounds, .address addr⟩)

/-- R101 to R109: the nine operations on registers `i` and `j`; the result goes into `x[i]` and nothing else changes. -/
def Obligations.AluResults : Prop :=
  ∀ (s : State) (i j : Byte) (hi : i.toNat < s.nregs) (hj : j.toNat < s.nregs),
    let vi := s.regs[i.toNat].toNat
    let vj := s.regs[j.toNat].toNat
    let result (v : Nat) : Except Raise State := .ok { s with regs := s.regs.set i.toNat (BitVec.ofNat 8 v) }
    alu .add i j s = result ((vi + vj) % 256) ∧
    alu .sub i j s = result ((vi + (256 - vj)) % 256) ∧
    alu .and i j s = result (vi &&& vj) ∧
    alu .or i j s = result (vi ||| vj) ∧
    alu .xor i j s = result (vi ^^^ vj) ∧
    alu .not i j s = result (255 - vi) ∧
    alu .shl i j s = result (vi * 2 ^ vj % 256) ∧
    alu .shr i j s = result (vi / 2 ^ vj) ∧
    alu .mod i j s = (if vj = 0 then .error ⟨.divisionByZero, .register j⟩ else result (vi % vj))

/-- R100, R106, R110: the index checks in the order `i` then `j`, NOT without any check of `j`, a tag outside the nine: the tag is named
by the fault's kind and its detail is none (R31). The model's choices in it: that the tag is in the kind with detail none, against
rule R200's column, and that it is checked before the indices (log entry 5). -/
def Obligations.AluChecks : Prop :=
  (∀ (s : State) (op : AluOp) (i j : Byte), (∀ n, op ≠ .unrecognized n) → s.nregs ≤ i.toNat →
    alu op i j s = .error ⟨.outOfBounds, .register i⟩) ∧
  (∀ (s : State) (op : AluOp) (i j : Byte), (∀ n, op ≠ .unrecognized n) → op ≠ .not → i.toNat < s.nregs →
    s.nregs ≤ j.toNat → alu op i j s = .error ⟨.outOfBounds, .register j⟩) ∧
  (∀ (s : State) (i j : Byte) (h : i.toNat < s.nregs),
    alu .not i j s = .ok { s with regs := s.regs.set i.toNat (BitVec.ofNat 8 (255 - s.regs[i.toNat].toNat)) }) ∧
  (∀ (s : State) (n : Nat) (i j : Byte),
    alu (.unrecognized n) i j s = .error ⟨.unsupportedOperation (.unrecognized n), .none⟩)

/-- R203: the ALU interface used outside an instruction does what the operation does; where that raises, the record holds the
operation's register indices in place of the operand bytes and nothing else changes. The model's choices in it: a tag outside the nine
is raised before any index is checked, and its record has the tag in the kind and detail none (log entry 5, which weighs rule R31
against rule R200's column); the record's pc and opcode are arguments (log entry 6); in a terminal state the interface changes nothing
(log entry 13); OutOfBounds is recorded like the other two kinds (log entry 14). -/
def Obligations.AluFaultRecordsItsIndices : Prop :=
  ∀ (s : State) (pc : Nat) (opcode : Byte) (op : AluOp) (i j : Byte),
    let recorded (kind : FaultKind) (d : Detail) : State :=
      { s with run := .faulted, fault := some ⟨kind, pc, opcode, some i, some j, d⟩ }
    (s.run = .running →
      (∀ t, alu op i j s = .ok t → aluUse pc opcode op i j s = t) ∧
      (∀ (_ : i.toNat < s.nregs) (_ : j.toNat < s.nregs), s.regs[j.toNat] = 0#8 →
        aluUse pc opcode .mod i j s = recorded .divisionByZero (.register j)) ∧
      (∀ n, aluUse pc opcode (.unrecognized n) i j s = recorded (.unsupportedOperation (.unrecognized n)) .none) ∧
      ((∀ n, op ≠ .unrecognized n) → s.nregs ≤ i.toNat → aluUse pc opcode op i j s = recorded .outOfBounds (.register i)) ∧
      ((∀ n, op ≠ .unrecognized n) → op ≠ .not → i.toNat < s.nregs → s.nregs ≤ j.toNat →
        aluUse pc opcode op i j s = recorded .outOfBounds (.register j))) ∧
    (s.run ≠ .running → aluUse pc opcode op i j s = s)

/-! ### The instructions, one statement a rule: encoding, effect, every fault of its own, the fault at operand fetch -/

/-- R112. -/
def Obligations.AddRule : Prop :=
  (∀ (a b : Byte) (s : State) (ha : a.toNat < s.nregs) (hb : b.toNat < s.nregs),
    exec (.add a b) s = .next { s with
      regs := s.regs.set a.toNat (BitVec.ofNat 8 ((s.regs[a.toNat].toNat + s.regs[b.toNat].toNat) % 256)), pc := s.pc + 3 }) ∧
  (∀ (a b : Byte) (s : State), s.nregs ≤ a.toNat → Raises (.add a b) s (.register a)) ∧
  (∀ (a b : Byte) (s : State), a.toNat < s.nregs → s.nregs ≤ b.toNat → Raises (.add a b) s (.register b)) ∧
  (∀ (a b : Byte) (rest : List Byte), decode (0b10100000#8 :: a :: b :: rest) = .ok (.add a b, rest)) ∧
  FaultsAtOperandFetch 0b10100000#8

/-- R113. -/
def Obligations.MultRule : Prop :=
  (∀ (a b : Byte) (s : State) (ha : a.toNat < s.nregs) (hb : b.toNat < s.nregs),
    exec (.mult a b) s = .next { s with
      regs := s.regs.set a.toNat (BitVec.ofNat 8 (s.regs[a.toNat].toNat * s.regs[b.toNat].toNat % 256)), pc := s.pc + 3 }) ∧
  (∀ (a b : Byte) (s : State), s.nregs ≤ a.toNat → Raises (.mult a b) s (.register a)) ∧
  (∀ (a b : Byte) (s : State), a.toNat < s.nregs → s.nregs ≤ b.toNat → Raises (.mult a b) s (.register b)) ∧
  (∀ (a b : Byte) (rest : List Byte), decode (0b10100010#8 :: a :: b :: rest) = .ok (.mult a b, rest)) ∧
  FaultsAtOperandFetch 0b10100010#8

/-- R114. -/
def Obligations.CmpRule : Prop :=
  (∀ (a b : Byte) (s : State) (ha : a.toNat < s.nregs) (hb : b.toNat < s.nregs),
    exec (.cmp a b) s = .next { s with
      fl := if s.regs[a.toNat].toNat = s.regs[b.toNat].toNat then 0b00000001#8
            else if s.regs[b.toNat].toNat < s.regs[a.toNat].toNat then 0b00000010#8 else 0b00000100#8,
      pc := s.pc + 3 }) ∧
  (∀ (a b : Byte) (s : State), s.nregs ≤ a.toNat → Raises (.cmp a b) s (.register a)) ∧
  (∀ (a b : Byte) (s : State), a.toNat < s.nregs → s.nregs ≤ b.toNat → Raises (.cmp a b) s (.register b)) ∧
  (∀ (a b : Byte) (rest : List Byte), decode (0b10100111#8 :: a :: b :: rest) = .ok (.cmp a b, rest)) ∧
  FaultsAtOperandFetch 0b10100111#8

/-- R115. -/
def Obligations.AddiRule : Prop :=
  (∀ (a imm : Byte) (s : State) (ha : a.toNat < s.nregs),
    exec (.addi a imm) s = .next { s with
      regs := s.regs.set a.toNat (BitVec.ofNat 8 ((s.regs[a.toNat].toNat + imm.toNat) % 256)), pc := s.pc + 3 }) ∧
  (∀ (a imm : Byte) (s : State), s.nregs ≤ a.toNat → Raises (.addi a imm) s (.register a)) ∧
  (∀ (a imm : Byte) (rest : List Byte), decode (0b10001000#8 :: a :: imm :: rest) = .ok (.addi a imm, rest)) ∧
  FaultsAtOperandFetch 0b10001000#8

/-- R130. -/
def Obligations.LdiRule : Prop :=
  (∀ (a imm : Byte) (s : State), a.toNat < s.nregs →
    exec (.ldi a imm) s = .next { s with regs := s.regs.set a.toNat imm, pc := s.pc + 3 }) ∧
  (∀ (a imm : Byte) (s : State), s.nregs ≤ a.toNat → Raises (.ldi a imm) s (.register a)) ∧
  (∀ (a imm : Byte) (rest : List Byte), decode (0b10000010#8 :: a :: imm :: rest) = .ok (.ldi a imm, rest)) ∧
  FaultsAtOperandFetch 0b10000010#8

/-- R131. -/
def Obligations.StRule : Prop :=
  (∀ (a b : Byte) (s : State) (ha : a.toNat < s.nregs) (hb : b.toNat < s.nregs),
    ∃ t, exec (.st a b) s = .next t ∧ t = { s with mem := t.mem, pc := s.pc + 3 } ∧
      ∀ k : Nat, byteAt t k = if k = s.regs[a.toNat].toNat then s.regs[b.toNat] else byteAt s k) ∧
  (∀ (a b : Byte) (s : State), s.nregs ≤ a.toNat → Raises (.st a b) s (.register a)) ∧
  (∀ (a b : Byte) (s : State), a.toNat < s.nregs → s.nregs ≤ b.toNat → Raises (.st a b) s (.register b)) ∧
  (∀ (a b : Byte) (rest : List Byte), decode (0b10000100#8 :: a :: b :: rest) = .ok (.st a b, rest)) ∧
  FaultsAtOperandFetch 0b10000100#8

/-- R140. -/
def Obligations.PushRule : Prop :=
  (∀ (a : Byte) (s : State) (ha : a.toNat < s.nregs), 0 ≤ s.sp → s.sp ≤ 255 →
    ∃ t, exec (.push a) s = .next t ∧ t = { s with mem := t.mem, sp := s.sp - 1, pc := s.pc + 2 } ∧
      ∀ k : Nat, byteAt t k = if (k : Int) = s.sp then s.regs[a.toNat] else byteAt s k) ∧
  (∀ (a : Byte) (s : State), s.nregs ≤ a.toNat → Raises (.push a) s (.register a)) ∧
  (∀ (a : Byte) (s : State), a.toNat < s.nregs → s.sp = -1 → Raises (.push a) s (.address (-1))) ∧
  (∀ (a : Byte) (rest : List Byte), decode (0b01000101#8 :: a :: rest) = .ok (.push a, rest)) ∧
  FaultsAtOperandFetch 0b01000101#8

/-- R141. -/
def Obligations.PopRule : Prop :=
  (∀ (a : Byte) (s : State), a.toNat < s.nregs → -1 ≤ s.sp → s.sp ≤ 254 →
    ∃ t, exec (.pop a) s = .next t ∧
      t = { s with regs := s.regs.set a.toNat (byteAt s (s.sp + 1).toNat), mem := t.mem, sp := s.sp + 1, pc := s.pc + 2 } ∧
      ∀ k : Nat, byteAt t k = if (k : Int) = s.sp + 1 then 0#8 else byteAt s k) ∧
  (∀ (a : Byte) (s : State), s.nregs ≤ a.toNat → Raises (.pop a) s (.register a)) ∧
  (∀ (a : Byte) (s : State), a.toNat < s.nregs → s.sp = 255 → Raises (.pop a) s (.address 256)) ∧
  (∀ (a : Byte) (rest : List Byte), decode (0b01000110#8 :: a :: rest) = .ok (.pop a, rest)) ∧
  FaultsAtOperandFetch 0b01000110#8

/-- R150. The pc is at most 253 wherever a step executes CALL (rule R84), so the return address fits a byte; register 5 exists on
every machine rule R9 allows. -/
def Obligations.CallRule : Prop :=
  (∀ (a : Byte) (s : State) (ha : a.toNat < s.nregs), 5 < s.nregs → s.pc ≤ 253 → 0 ≤ s.sp → s.sp ≤ 255 →
    ∃ t, exec (.call a) s = .next t ∧
      t = { s with regs := s.regs.set 5 (BitVec.ofNat 8 (s.pc + 2)), mem := t.mem, sp := s.sp - 1,
                   pc := if a.toNat = 5 then s.pc + 2 else s.regs[a.toNat].toNat } ∧
      ∀ k : Nat, byteAt t k = if (k : Int) = s.sp then BitVec.ofNat 8 (s.pc + 2) else byteAt s k) ∧
  (∀ (a : Byte) (s : State), s.nregs ≤ a.toNat → Raises (.call a) s (.register a)) ∧
  (∀ (a : Byte) (s : State), a.toNat < s.nregs → 5 < s.nregs → s.sp = -1 → Raises (.call a) s (.address (-1))) ∧
  (∀ (a : Byte) (rest : List Byte), decode (0b01010000#8 :: a :: rest) = .ok (.call a, rest)) ∧
  FaultsAtOperandFetch 0b01010000#8

/-- R151. Register 5 exists on every machine rule R9 allows. -/
def Obligations.RetRule : Prop :=
  (∀ s : State, 5 < s.nregs → -1 ≤ s.sp → s.sp ≤ 254 →
    ∃ t, exec .ret s = .next t ∧
      t = { s with regs := s.regs.set 5 (byteAt s (s.sp + 1).toNat), mem := t.mem, sp := s.sp + 1,
                   pc := (byteAt s (s.sp + 1).toNat).toNat } ∧
      ∀ k : Nat, byteAt t k = if (k : Int) = s.sp + 1 then 0#8 else byteAt s k) ∧
  (∀ s : State, s.sp = 255 → Raises .ret s (.address 256)) ∧
  (∀ rest : List Byte, decode (0b00010001#8 :: rest) = .ok (.ret, rest)) ∧
  FaultsAtOperandFetch 0b00010001#8

/-- R152. -/
def Obligations.JmpRule : Prop :=
  (∀ (a : Byte) (s : State) (ha : a.toNat < s.nregs),
    exec (.jmp a) s = .next { s with pc := s.regs[a.toNat].toNat }) ∧
  (∀ (a : Byte) (s : State), s.nregs ≤ a.toNat → Raises (.jmp a) s (.register a)) ∧
  (∀ (a : Byte) (rest : List Byte), decode (0b01010100#8 :: a :: rest) = .ok (.jmp a, rest)) ∧
  FaultsAtOperandFetch 0b01010100#8

/-- R153. -/
def Obligations.JeqRule : Prop :=
  (∀ (a : Byte) (s : State) (ha : a.toNat < s.nregs), s.fl = 0b00000001#8 →
    exec (.jeq a) s = .next { s with pc := s.regs[a.toNat].toNat }) ∧
  (∀ (a : Byte) (s : State), s.fl ≠ 0b00000001#8 → exec (.jeq a) s = .next { s with pc := s.pc + 2 }) ∧
  (∀ (a : Byte) (s : State), s.fl = 0b00000001#8 → s.nregs ≤ a.toNat → Raises (.jeq a) s (.register a)) ∧
  (∀ (a : Byte) (rest : List Byte), decode (0b01010101#8 :: a :: rest) = .ok (.jeq a, rest)) ∧
  FaultsAtOperandFetch 0b01010101#8

/-- R154. -/
def Obligations.JneRule : Prop :=
  (∀ (a : Byte) (s : State) (ha : a.toNat < s.nregs), s.fl = 0b00000010#8 ∨ s.fl = 0b00000100#8 →
    exec (.jne a) s = .next { s with pc := s.regs[a.toNat].toNat }) ∧
  (∀ (a : Byte) (s : State), s.fl ≠ 0b00000010#8 → s.fl ≠ 0b00000100#8 →
    exec (.jne a) s = .next { s with pc := s.pc + 2 }) ∧
  (∀ (a : Byte) (s : State), s.fl = 0b00000010#8 ∨ s.fl = 0b00000100#8 → s.nregs ≤ a.toNat →
    Raises (.jne a) s (.register a)) ∧
  (∀ (a : Byte) (rest : List Byte), decode (0b01010110#8 :: a :: rest) = .ok (.jne a, rest)) ∧
  FaultsAtOperandFetch 0b01010110#8

/-- R170. -/
def Obligations.PrnRule : Prop :=
  (∀ (a : Byte) (s : State) (ha : a.toNat < s.nregs),
    exec (.prn a) s = .next { s with out := s.out ++ [s.regs[a.toNat]], pc := s.pc + 2 }) ∧
  (∀ (a : Byte) (s : State), s.nregs ≤ a.toNat → Raises (.prn a) s (.register a)) ∧
  (∀ (a : Byte) (rest : List Byte), decode (0b01000111#8 :: a :: rest) = .ok (.prn a, rest)) ∧
  FaultsAtOperandFetch 0b01000111#8

/-- R171. -/
def Obligations.HltRule : Prop :=
  (∀ s : State, exec .hlt s = .next { s with run := .halted }) ∧
  (∀ rest : List Byte, decode (0b00000001#8 :: rest) = .ok (.hlt, rest)) ∧
  FaultsAtOperandFetch 0b00000001#8

/-! ### Laws over two instructions -/

/-- R142: PUSH Ra then POP Rb copies `x[a]` into `x[b]`, restores sp, clears the cell whatever it held, touches no other cell, and
advances pc by 4; with b = a every register is as before. -/
def Obligations.PushPopRoundTrip : Prop :=
  (∀ (s : State) (a b : Byte) (ha : a.toNat < s.nregs) (hb : b.toNat < s.nregs), 0 ≤ s.sp → s.sp ≤ 255 →
    ∃ t u, exec (.push a) s = .next t ∧ exec (.pop b) t = .next u ∧
      u = { s with regs := s.regs.set b.toNat s.regs[a.toNat], mem := u.mem, pc := s.pc + 4 } ∧
      ∀ k : Nat, byteAt u k = if (k : Int) = s.sp then 0#8 else byteAt s k) ∧
  (∀ (s : State) (a : Byte) (_ : a.toNat < s.nregs), 0 ≤ s.sp → s.sp ≤ 255 →
    ∃ t u, exec (.push a) s = .next t ∧ exec (.pop a) t = .next u ∧ u.regs = s.regs ∧ u.sp = s.sp)

/-- R156: after a CALL at `s.pc` that does not fault, a RET executed in any state whose sp and top of stack are as the CALL left them
sets pc to the call site plus 2, whatever else has changed. -/
def Obligations.CallThenRetReturns : Prop :=
  ∀ (s t u : State) (a : Byte), s.pc ≤ 253 → exec (.call a) s = .next t → t.run ≠ .faulted → s.run = .running →
    u.nregs = t.nregs → u.sp = t.sp → byteAt u (t.sp + 1).toNat = byteAt t (t.sp + 1).toNat →
    ∃ v, exec .ret u = .next v ∧ v.pc = s.pc + 2

/-- R86, R155: two nested calls return in order: an inner CALL and RET leave the outer return address on the stack. -/
def Obligations.NestedCallsReturn : Prop :=
  ∀ (s t u v : State) (a b : Byte), s.pc ≤ 253 → s.run = .running → exec (.call a) s = .next t → t.run = .running →
    t.pc ≤ 253 → exec (.call b) t = .next u → u.run = .running → exec .ret u = .next v →
    ∃ w, v.pc = t.pc + 2 ∧ exec .ret v = .next w ∧ w.pc = s.pc + 2 ∧ w.sp = s.sp
end

