-- ==== Sys2Proof/Laws/Memory.lean ====
section
/-! SUPPORT. The laws of memory: a write is read back, leaves every other cell alone, and keeps the canonical form; two canonical
memories that read alike are equal (log entry 9). -/

namespace Sys2Proof.Machine

theorem readByte_eq_memReset {m : Memory} {a : Nat} (h : ∀ c ∈ m, c.1 ≠ a) : readByte m a = Config.memReset := by
  induction m with
  | nil => rfl
  | cons c m ih =>
    obtain ⟨hc, hm⟩ := List.forall_mem_cons.mp h
    rw [readByte, if_neg hc, ih hm]

theorem readByte_of_mem {m : Memory} (hm : m.Pairwise fun c d => c.1 < d.1) {a : Nat} {v : Byte} (h : (a, v) ∈ m) :
    readByte m a = v := by
  induction m with
  | nil => cases h
  | cons c m ih =>
    obtain ⟨hc, hm⟩ := List.pairwise_cons.mp hm
    rcases List.mem_cons.mp h with rfl | h
    · simp [readByte]
    · rw [readByte, if_neg (Nat.ne_of_lt (hc _ h)), ih hm h]

theorem mem_eraseCell {m : Memory} {a : Nat} {c : Host.Cell} : c ∈ eraseCell m a ↔ c ∈ m ∧ c.1 ≠ a := by
  simp [eraseCell]

theorem readByte_eraseCell_same (m : Memory) (a : Nat) : readByte (eraseCell m a) a = Config.memReset :=
  readByte_eq_memReset fun _ hc => (mem_eraseCell.mp hc).2

theorem readByte_eraseCell_other (m : Memory) {a b : Nat} (h : b ≠ a) : readByte (eraseCell m a) b = readByte m b := by
  induction m with
  | nil => rfl
  | cons c m ih =>
    by_cases hc : c.1 = a
    · have : c.1 ≠ b := by omega
      rw [eraseCell, List.filter_cons_of_neg (by simp [hc]), readByte, if_neg this]
      exact ih
    · rw [eraseCell, List.filter_cons_of_pos (by simp [hc])]
      simp only [readByte]
      rw [← ih]
      rfl

theorem mem_insertCell {m : Memory} {a : Nat} {v : Byte} {c : Host.Cell} : c ∈ insertCell a v m ↔ c = (a, v) ∨ c ∈ m := by
  induction m with
  | nil => simp [insertCell]
  | cons d m ih =>
    rw [insertCell]
    split
    · simp
    · simp only [List.mem_cons, ih]
      tauto

theorem readByte_insertCell_same {m : Memory} {a : Nat} (v : Byte) (h : ∀ c ∈ m, c.1 ≠ a) : readByte (insertCell a v m) a = v := by
  induction m with
  | nil => simp [insertCell, readByte]
  | cons c m ih =>
    obtain ⟨hc, hm⟩ := List.forall_mem_cons.mp h
    rw [insertCell]
    split
    · simp [readByte]
    · rw [readByte, if_neg hc, ih hm]

theorem readByte_insertCell_other (m : Memory) {a b : Nat} (v : Byte) (h : b ≠ a) : readByte (insertCell a v m) b = readByte m b := by
  induction m with
  | nil => simp [insertCell, readByte, Ne.symm h]
  | cons c m ih =>
    rw [insertCell]
    split
    · rw [readByte, if_neg (Ne.symm h)]
    · rw [readByte, readByte, ih]

/-- A write is read back, and every other cell reads as before: of ANY list, so a claim about a write needs no canonical form. -/
theorem readByte_writeByte (m : Memory) (a b : Nat) (v : Byte) :
    readByte (writeByte m a v) b = if b = a then v else readByte m b := by
  rw [writeByte]
  by_cases hv : v = Config.memReset
  · rw [if_pos hv]
    split
    · next h => rw [h, readByte_eraseCell_same, hv]
    · next h => exact readByte_eraseCell_other m h
  · rw [if_neg hv]
    split
    · next h => rw [h, readByte_insertCell_same v fun c hc => (mem_eraseCell.mp hc).2]
    · next h => rw [readByte_insertCell_other _ v h, readByte_eraseCell_other m h]

/-! ### The canonical form -/

theorem Memory.wf_nil : Memory.wf [] := by simp [Memory.wf]

theorem eraseCell_wf {m : Memory} (h : m.wf) (a : Nat) : (eraseCell m a).wf :=
  ⟨h.1.filter _, fun c hc => h.2 c (mem_eraseCell.mp hc).1⟩

theorem insertCell_pairwise {m : Memory} {a : Nat} (v : Byte) (hm : m.Pairwise fun c d => c.1 < d.1) (h : ∀ c ∈ m, c.1 ≠ a) :
    (insertCell a v m).Pairwise fun c d => c.1 < d.1 := by
  induction m with
  | nil => simp [insertCell]
  | cons c m ih =>
    obtain ⟨hc, hm'⟩ := List.pairwise_cons.mp hm
    obtain ⟨ha, hm''⟩ := List.forall_mem_cons.mp h
    rw [insertCell]
    split
    · next hlt =>
      refine List.pairwise_cons.mpr ⟨fun d hd => ?_, hm⟩
      rcases List.mem_cons.mp hd with rfl | hd
      · exact hlt
      · exact hlt.trans (hc d hd)
    · next hge =>
      refine List.pairwise_cons.mpr ⟨fun d hd => ?_, ih hm' hm''⟩
      rcases mem_insertCell.mp hd with rfl | hd
      · exact Nat.lt_of_le_of_ne (Nat.not_lt.mp hge) ha
      · exact hc d hd

/-- Every write inside the 256 cells keeps the canonical form. -/
theorem writeByte_wf {m : Memory} (h : m.wf) {a : Nat} (ha : a < Config.memSize) (v : Byte) : (writeByte m a v).wf := by
  rw [writeByte]
  split
  · exact eraseCell_wf h a
  · next hv =>
    refine ⟨insertCell_pairwise v (eraseCell_wf h a).1 fun c hc => (mem_eraseCell.mp hc).2, fun c hc => ?_⟩
    rcases mem_insertCell.mp hc with rfl | hc
    · exact ⟨ha, hv⟩
    · exact (eraseCell_wf h a).2 c hc

theorem storeBytes_wf (bytes : List Byte) {m : Memory} (h : m.wf) (k : Nat) : (storeBytes m k bytes).wf := by
  induction bytes generalizing m k with
  | nil => exact h
  | cons v bytes ih =>
    rw [storeBytes]
    split
    · next hk => exact ih (writeByte_wf h hk v) _
    · exact ih h _

/-- What a sequence of stores leaves: the stored bytes at their addresses, every other cell as before. -/
theorem readByte_storeBytes (bytes : List Byte) (m : Memory) (k b : Nat) :
    readByte (storeBytes m k bytes) b =
      if h : k ≤ b ∧ b < k + bytes.length ∧ b < Config.memSize then bytes[b - k] else readByte m b := by
  induction bytes generalizing m k with
  | nil =>
    have : ¬ (k ≤ b ∧ b < k + ([] : List Byte).length ∧ b < Config.memSize) := by simp; omega
    rw [dif_neg this]; rfl
  | cons v bytes ih =>
    rw [storeBytes, ih]
    rcases Nat.lt_trichotomy b k with hlt | rfl | hgt
    · rw [dif_neg (by omega), dif_neg (by omega)]
      split <;> simp [readByte_writeByte, Nat.ne_of_lt hlt]
    · rw [dif_neg (by omega)]
      by_cases hb : b < Config.memSize
      · rw [if_pos hb, dif_pos ⟨le_rfl, by simp, hb⟩]
        simp [readByte_writeByte]
      · rw [if_neg hb, dif_neg (by omega)]
    · by_cases h : b < k + 1 + bytes.length ∧ b < Config.memSize
      · rw [dif_pos ⟨hgt, h⟩, dif_pos ⟨hgt.le, by simp only [List.length_cons]; omega, h.2⟩]
        have : b - k = b - (k + 1) + 1 := by omega
        simp [this]
      · rw [dif_neg (by omega), dif_neg (by simp only [List.length_cons]; omega)]
        split <;> simp [readByte_writeByte, Nat.ne_of_gt hgt]

/-- A cell that does not read as at reset is listed. -/
theorem mem_of_readByte_ne {m : Memory} {a : Nat} (h : readByte m a ≠ Config.memReset) : (a, readByte m a) ∈ m := by
  induction m with
  | nil => exact absurd rfl h
  | cons c m ih =>
    rw [readByte] at h ⊢
    split
    · next hc => subst hc; exact List.mem_cons_self
    · next hc => rw [if_neg hc] at h; exact List.mem_cons_of_mem _ (ih h)

/-- Two canonical memories that read alike everywhere are the same list: equal memories are equal data. -/
theorem Memory.ext_of_readByte {m n : Memory} (hm : m.wf) (hn : n.wf) (h : ∀ a, readByte m a = readByte n a) : m = n := by
  have sub : ∀ {p q : Memory}, p.wf → (∀ a, readByte p a = readByte q a) → ∀ c ∈ p, c ∈ q := by
    intro p q hp hpq c hc
    have hv : readByte q c.1 = c.2 := (hpq c.1).symm.trans (readByte_of_mem hp.1 hc)
    have := mem_of_readByte_ne (m := q) (a := c.1) (hv ▸ (hp.2 c hc).2)
    rwa [hv] at this
  have nodup : ∀ {p : Memory}, p.wf → p.Nodup := fun hp =>
    hp.1.imp fun {c d} hlt (e : c = d) => Nat.lt_irrefl d.1 (e ▸ hlt)
  refine List.Perm.eq_of_pairwise (le := fun c d : Host.Cell => c.1 < d.1) (fun a b _ _ h1 h2 => absurd h1 (Nat.lt_asymm h2)) hm.1 hn.1 ?_
  exact (List.perm_ext_iff_of_nodup (nodup hm) (nodup hn)).mpr fun c => ⟨sub hm h c, sub hn (fun a => (h a).symm) c⟩

end Sys2Proof.Machine
end

