-- ==== Sys2Proof/Laws/State.lean ====
section
/-! SUPPORT. Every field of the state after every update: what an update writes, and that it writes nothing else; and
the number of registers after it. -/

namespace Sys2Proof.Machine

variable (s : State)

@[simp] theorem State.setRegs_nregs (r : List Byte) : (s.setRegs r).nregs = r.length := rfl
@[simp] theorem State.setRegs_regs (r : List Byte) : (s.setRegs r).regs = r := rfl
@[simp] theorem State.setRegs_pc (r : List Byte) : (s.setRegs r).pc = s.pc := rfl
@[simp] theorem State.setRegs_sp (r : List Byte) : (s.setRegs r).sp = s.sp := rfl
@[simp] theorem State.setRegs_fl (r : List Byte) : (s.setRegs r).fl = s.fl := rfl
@[simp] theorem State.setRegs_ir (r : List Byte) : (s.setRegs r).ir = s.ir := rfl
@[simp] theorem State.setRegs_opA (r : List Byte) : (s.setRegs r).opA = s.opA := rfl
@[simp] theorem State.setRegs_opB (r : List Byte) : (s.setRegs r).opB = s.opB := rfl
@[simp] theorem State.setRegs_mem (r : List Byte) : (s.setRegs r).mem = s.mem := rfl
@[simp] theorem State.setRegs_run (r : List Byte) : (s.setRegs r).run = s.run := rfl
@[simp] theorem State.setRegs_fault (r : List Byte) : (s.setRegs r).fault = s.fault := rfl
@[simp] theorem State.setRegs_out (r : List Byte) : (s.setRegs r).out = s.out := rfl

@[simp] theorem State.setPc_nregs (n : Nat) : (s.setPc n).nregs = s.nregs := rfl
@[simp] theorem State.setPc_regs (n : Nat) : (s.setPc n).regs = s.regs := rfl
@[simp] theorem State.setPc_pc (n : Nat) : (s.setPc n).pc = n := rfl
@[simp] theorem State.setPc_sp (n : Nat) : (s.setPc n).sp = s.sp := rfl
@[simp] theorem State.setPc_fl (n : Nat) : (s.setPc n).fl = s.fl := rfl
@[simp] theorem State.setPc_ir (n : Nat) : (s.setPc n).ir = s.ir := rfl
@[simp] theorem State.setPc_opA (n : Nat) : (s.setPc n).opA = s.opA := rfl
@[simp] theorem State.setPc_opB (n : Nat) : (s.setPc n).opB = s.opB := rfl
@[simp] theorem State.setPc_mem (n : Nat) : (s.setPc n).mem = s.mem := rfl
@[simp] theorem State.setPc_run (n : Nat) : (s.setPc n).run = s.run := rfl
@[simp] theorem State.setPc_fault (n : Nat) : (s.setPc n).fault = s.fault := rfl
@[simp] theorem State.setPc_out (n : Nat) : (s.setPc n).out = s.out := rfl

@[simp] theorem State.setSp_nregs (n : Int) : (s.setSp n).nregs = s.nregs := rfl
@[simp] theorem State.setSp_regs (n : Int) : (s.setSp n).regs = s.regs := rfl
@[simp] theorem State.setSp_pc (n : Int) : (s.setSp n).pc = s.pc := rfl
@[simp] theorem State.setSp_sp (n : Int) : (s.setSp n).sp = n := rfl
@[simp] theorem State.setSp_fl (n : Int) : (s.setSp n).fl = s.fl := rfl
@[simp] theorem State.setSp_ir (n : Int) : (s.setSp n).ir = s.ir := rfl
@[simp] theorem State.setSp_opA (n : Int) : (s.setSp n).opA = s.opA := rfl
@[simp] theorem State.setSp_opB (n : Int) : (s.setSp n).opB = s.opB := rfl
@[simp] theorem State.setSp_mem (n : Int) : (s.setSp n).mem = s.mem := rfl
@[simp] theorem State.setSp_run (n : Int) : (s.setSp n).run = s.run := rfl
@[simp] theorem State.setSp_fault (n : Int) : (s.setSp n).fault = s.fault := rfl
@[simp] theorem State.setSp_out (n : Int) : (s.setSp n).out = s.out := rfl

@[simp] theorem State.setFl_nregs (f : Byte) : (s.setFl f).nregs = s.nregs := rfl
@[simp] theorem State.setFl_regs (f : Byte) : (s.setFl f).regs = s.regs := rfl
@[simp] theorem State.setFl_pc (f : Byte) : (s.setFl f).pc = s.pc := rfl
@[simp] theorem State.setFl_sp (f : Byte) : (s.setFl f).sp = s.sp := rfl
@[simp] theorem State.setFl_fl (f : Byte) : (s.setFl f).fl = f := rfl
@[simp] theorem State.setFl_ir (f : Byte) : (s.setFl f).ir = s.ir := rfl
@[simp] theorem State.setFl_opA (f : Byte) : (s.setFl f).opA = s.opA := rfl
@[simp] theorem State.setFl_opB (f : Byte) : (s.setFl f).opB = s.opB := rfl
@[simp] theorem State.setFl_mem (f : Byte) : (s.setFl f).mem = s.mem := rfl
@[simp] theorem State.setFl_run (f : Byte) : (s.setFl f).run = s.run := rfl
@[simp] theorem State.setFl_fault (f : Byte) : (s.setFl f).fault = s.fault := rfl
@[simp] theorem State.setFl_out (f : Byte) : (s.setFl f).out = s.out := rfl

@[simp] theorem State.setMem_nregs (m : Memory) : (s.setMem m).nregs = s.nregs := rfl
@[simp] theorem State.setMem_regs (m : Memory) : (s.setMem m).regs = s.regs := rfl
@[simp] theorem State.setMem_pc (m : Memory) : (s.setMem m).pc = s.pc := rfl
@[simp] theorem State.setMem_sp (m : Memory) : (s.setMem m).sp = s.sp := rfl
@[simp] theorem State.setMem_fl (m : Memory) : (s.setMem m).fl = s.fl := rfl
@[simp] theorem State.setMem_ir (m : Memory) : (s.setMem m).ir = s.ir := rfl
@[simp] theorem State.setMem_opA (m : Memory) : (s.setMem m).opA = s.opA := rfl
@[simp] theorem State.setMem_opB (m : Memory) : (s.setMem m).opB = s.opB := rfl
@[simp] theorem State.setMem_mem (m : Memory) : (s.setMem m).mem = m := rfl
@[simp] theorem State.setMem_run (m : Memory) : (s.setMem m).run = s.run := rfl
@[simp] theorem State.setMem_fault (m : Memory) : (s.setMem m).fault = s.fault := rfl
@[simp] theorem State.setMem_out (m : Memory) : (s.setMem m).out = s.out := rfl

@[simp] theorem State.setRun_nregs (r : RunState) : (s.setRun r).nregs = s.nregs := rfl
@[simp] theorem State.setRun_regs (r : RunState) : (s.setRun r).regs = s.regs := rfl
@[simp] theorem State.setRun_pc (r : RunState) : (s.setRun r).pc = s.pc := rfl
@[simp] theorem State.setRun_sp (r : RunState) : (s.setRun r).sp = s.sp := rfl
@[simp] theorem State.setRun_fl (r : RunState) : (s.setRun r).fl = s.fl := rfl
@[simp] theorem State.setRun_ir (r : RunState) : (s.setRun r).ir = s.ir := rfl
@[simp] theorem State.setRun_opA (r : RunState) : (s.setRun r).opA = s.opA := rfl
@[simp] theorem State.setRun_opB (r : RunState) : (s.setRun r).opB = s.opB := rfl
@[simp] theorem State.setRun_mem (r : RunState) : (s.setRun r).mem = s.mem := rfl
@[simp] theorem State.setRun_run (r : RunState) : (s.setRun r).run = r := rfl
@[simp] theorem State.setRun_fault (r : RunState) : (s.setRun r).fault = s.fault := rfl
@[simp] theorem State.setRun_out (r : RunState) : (s.setRun r).out = s.out := rfl

@[simp] theorem State.latchOpcode_nregs (o : Byte) : (s.latchOpcode o).nregs = s.nregs := rfl
@[simp] theorem State.latchOpcode_regs (o : Byte) : (s.latchOpcode o).regs = s.regs := rfl
@[simp] theorem State.latchOpcode_pc (o : Byte) : (s.latchOpcode o).pc = s.pc := rfl
@[simp] theorem State.latchOpcode_sp (o : Byte) : (s.latchOpcode o).sp = s.sp := rfl
@[simp] theorem State.latchOpcode_fl (o : Byte) : (s.latchOpcode o).fl = s.fl := rfl
@[simp] theorem State.latchOpcode_ir (o : Byte) : (s.latchOpcode o).ir = o := rfl
@[simp] theorem State.latchOpcode_opA (o : Byte) : (s.latchOpcode o).opA = s.opA := rfl
@[simp] theorem State.latchOpcode_opB (o : Byte) : (s.latchOpcode o).opB = s.opB := rfl
@[simp] theorem State.latchOpcode_mem (o : Byte) : (s.latchOpcode o).mem = s.mem := rfl
@[simp] theorem State.latchOpcode_run (o : Byte) : (s.latchOpcode o).run = s.run := rfl
@[simp] theorem State.latchOpcode_fault (o : Byte) : (s.latchOpcode o).fault = s.fault := rfl
@[simp] theorem State.latchOpcode_out (o : Byte) : (s.latchOpcode o).out = s.out := rfl

@[simp] theorem State.latchOperands_nregs (a b : Byte) : (s.latchOperands a b).nregs = s.nregs := rfl
@[simp] theorem State.latchOperands_regs (a b : Byte) : (s.latchOperands a b).regs = s.regs := rfl
@[simp] theorem State.latchOperands_pc (a b : Byte) : (s.latchOperands a b).pc = s.pc := rfl
@[simp] theorem State.latchOperands_sp (a b : Byte) : (s.latchOperands a b).sp = s.sp := rfl
@[simp] theorem State.latchOperands_fl (a b : Byte) : (s.latchOperands a b).fl = s.fl := rfl
@[simp] theorem State.latchOperands_ir (a b : Byte) : (s.latchOperands a b).ir = s.ir := rfl
@[simp] theorem State.latchOperands_opA (a b : Byte) : (s.latchOperands a b).opA = a := rfl
@[simp] theorem State.latchOperands_opB (a b : Byte) : (s.latchOperands a b).opB = b := rfl
@[simp] theorem State.latchOperands_mem (a b : Byte) : (s.latchOperands a b).mem = s.mem := rfl
@[simp] theorem State.latchOperands_run (a b : Byte) : (s.latchOperands a b).run = s.run := rfl
@[simp] theorem State.latchOperands_fault (a b : Byte) : (s.latchOperands a b).fault = s.fault := rfl
@[simp] theorem State.latchOperands_out (a b : Byte) : (s.latchOperands a b).out = s.out := rfl

@[simp] theorem State.emit_nregs (v : Byte) : (s.emit v).nregs = s.nregs := rfl
@[simp] theorem State.emit_regs (v : Byte) : (s.emit v).regs = s.regs := rfl
@[simp] theorem State.emit_pc (v : Byte) : (s.emit v).pc = s.pc := rfl
@[simp] theorem State.emit_sp (v : Byte) : (s.emit v).sp = s.sp := rfl
@[simp] theorem State.emit_fl (v : Byte) : (s.emit v).fl = s.fl := rfl
@[simp] theorem State.emit_ir (v : Byte) : (s.emit v).ir = s.ir := rfl
@[simp] theorem State.emit_opA (v : Byte) : (s.emit v).opA = s.opA := rfl
@[simp] theorem State.emit_opB (v : Byte) : (s.emit v).opB = s.opB := rfl
@[simp] theorem State.emit_mem (v : Byte) : (s.emit v).mem = s.mem := rfl
@[simp] theorem State.emit_run (v : Byte) : (s.emit v).run = s.run := rfl
@[simp] theorem State.emit_fault (v : Byte) : (s.emit v).fault = s.fault := rfl
@[simp] theorem State.emit_out (v : Byte) : (s.emit v).out = s.out ++ [v] := rfl

@[simp] theorem takeFault_nregs (r : FaultRecord) : (takeFault r s).nregs = s.nregs := rfl
@[simp] theorem takeFault_regs (r : FaultRecord) : (takeFault r s).regs = s.regs := rfl
@[simp] theorem takeFault_pc (r : FaultRecord) : (takeFault r s).pc = s.pc := rfl
@[simp] theorem takeFault_sp (r : FaultRecord) : (takeFault r s).sp = s.sp := rfl
@[simp] theorem takeFault_fl (r : FaultRecord) : (takeFault r s).fl = s.fl := rfl
@[simp] theorem takeFault_ir (r : FaultRecord) : (takeFault r s).ir = s.ir := rfl
@[simp] theorem takeFault_opA (r : FaultRecord) : (takeFault r s).opA = s.opA := rfl
@[simp] theorem takeFault_opB (r : FaultRecord) : (takeFault r s).opB = s.opB := rfl
@[simp] theorem takeFault_mem (r : FaultRecord) : (takeFault r s).mem = s.mem := rfl
@[simp] theorem takeFault_run (r : FaultRecord) : (takeFault r s).run = .faulted := rfl
@[simp] theorem takeFault_fault (r : FaultRecord) : (takeFault r s).fault = some r := rfl
@[simp] theorem takeFault_out (r : FaultRecord) : (takeFault r s).out = s.out := rfl

end Sys2Proof.Machine
end

