-- ==== Sys2Proof/Laws/Ops.lean ====
section
/-! SUPPORT. One law per outcome of each shared operation: under which condition it answers what. Proofs cite these and unfold none. -/

namespace Sys2Proof.Machine

variable {s t : State} {i j v : Byte}

/-! ### Sequencing -/

@[simp] theorem ok_bind {α β : Type} (x : α) (f : α → Except Raise β) : ((.ok x : Except Raise α) >>= f) = f x := rfl

/-- The first raise ends the instruction (rule R14). -/
@[simp] theorem error_bind {α β : Type} (r : Raise) (f : α → Except Raise β) : ((.error r : Except Raise α) >>= f) = .error r := rfl

@[simp] theorem pure_eq_ok {α : Type} (x : α) : (pure x : Except Raise α) = .ok x := rfl

/-! ### Registers -/

/-- A register write keeps the number of registers (rule R9). -/
theorem nregs_of_writeReg (h : writeReg s i v = .ok t) : t.nregs = s.nregs := by
  unfold writeReg regWrite at h
  split at h
  · next e =>
    split at e <;> cases e
    cases h
    exact List.length_set
  · cases h

theorem regRead_of_lt {f : List Byte} (h : i.toNat < f.length) : regRead f i = some f[i.toNat] := List.getElem?_eq_getElem h

theorem regRead_of_ge {f : List Byte} (h : f.length ≤ i.toNat) : regRead f i = none := List.getElem?_eq_none h

theorem readReg_ok (h : i.toNat < s.nregs) : readReg s i = .ok s.regs[i.toNat] := by
  rw [readReg, regRead_of_lt h]

theorem readReg_error (h : s.nregs ≤ i.toNat) : readReg s i = .error (badRegister i) := by
  rw [readReg, regRead_of_ge h]

theorem writeReg_ok (h : i.toNat < s.nregs) : writeReg s i v = .ok (s.setRegs (s.regs.set i.toNat v)) := by
  rw [writeReg, regWrite, if_pos h]

theorem writeReg_error (h : s.nregs ≤ i.toNat) : writeReg s i v = .error (badRegister i) := by
  rw [writeReg, regWrite, if_neg (Nat.not_lt.mpr h)]

theorem checkReg_ok (h : i.toNat < s.nregs) : checkReg s i = .ok () := by
  rw [checkReg, regRead_of_lt h]

theorem checkReg_error (h : s.nregs ≤ i.toNat) : checkReg s i = .error (badRegister i) := by
  rw [checkReg, regRead_of_ge h]

/-- A register read answers exactly where the index names a register. -/
theorem readReg_eq_ok_iff : readReg s i = .ok v ↔ ∃ h : i.toNat < s.nregs, v = s.regs[i.toNat] := by
  rcases Nat.lt_or_ge i.toNat s.nregs with h | h
  · rw [readReg_ok h]; exact ⟨fun e => ⟨h, by injection e with e; exact e.symm⟩, fun ⟨_, e⟩ => e ▸ rfl⟩
  · rw [readReg_error h]; exact ⟨nofun, fun ⟨h', _⟩ => absurd h' (Nat.not_lt.mpr h)⟩

theorem readPair_ok (hi : i.toNat < s.nregs) (hj : j.toNat < s.nregs) :
    readPair s i j = .ok (s.regs[i.toNat], s.regs[j.toNat]) := by
  rw [readPair, readReg_ok hi, readReg_ok hj]; rfl

/-- The first operand is checked first, whatever the second is (rule R207). -/
theorem readPair_error_left (hi : s.nregs ≤ i.toNat) : readPair s i j = .error (badRegister i) := by
  rw [readPair, readReg_error hi]; rfl

theorem readPair_error_right (hi : i.toNat < s.nregs) (hj : s.nregs ≤ j.toNat) :
    readPair s i j = .error (badRegister j) := by
  rw [readPair, readReg_ok hi, readReg_error hj]; rfl

theorem readTarget_ok (h : i.toNat < s.nregs) : readTarget s i = .ok s.regs[i.toNat].toNat := by
  rw [readTarget, readReg_ok h]; rfl

theorem readTarget_error (h : s.nregs ≤ i.toNat) : readTarget s i = .error (badRegister i) := by
  rw [readTarget, readReg_error h]; rfl

/-! ### Memory and stack -/

theorem inMemory_iff {addr : Int} : inMemory addr = true ↔ 0 ≤ addr ∧ addr ≤ 255 := by
  simp [inMemory]; omega

theorem memRead_ok {addr : Int} (h0 : 0 ≤ addr) (h1 : addr ≤ 255) : memRead s addr = .ok (readByte s.mem addr.toNat) := by
  rw [memRead, if_pos (inMemory_iff.mpr ⟨h0, h1⟩)]

theorem memRead_error {addr : Int} (h : addr < 0 ∨ 255 < addr) : memRead s addr = .error (badAddress addr) := by
  rw [memRead, if_neg (by rw [inMemory_iff]; omega)]

theorem memWrite_ok {addr : Int} (h0 : 0 ≤ addr) (h1 : addr ≤ 255) :
    memWrite s addr v = .ok (s.setMem (writeByte s.mem addr.toNat v)) := by
  rw [memWrite, if_pos (inMemory_iff.mpr ⟨h0, h1⟩)]

theorem memWrite_error {addr : Int} (h : addr < 0 ∨ 255 < addr) : memWrite s addr v = .error (badAddress addr) := by
  rw [memWrite, if_neg (by rw [inMemory_iff]; omega)]

theorem pushByte_ok (h0 : 0 ≤ s.sp) (h1 : s.sp ≤ 255) :
    pushByte s v = .ok ((s.setMem (writeByte s.mem s.sp.toNat v)).setSp (s.sp - 1)) := by
  rw [pushByte, memWrite_ok h0 h1]; rfl

theorem pushByte_error (h : s.sp < 0 ∨ 255 < s.sp) : pushByte s v = .error (badAddress s.sp) := by
  rw [pushByte, memWrite_error h]; rfl

theorem popByte_ok (h0 : -1 ≤ s.sp) (h1 : s.sp ≤ 254) :
    popByte s = .ok (readByte s.mem (s.sp + 1).toNat, (s.setMem (writeByte s.mem (s.sp + 1).toNat 0#8)).setSp (s.sp + 1)) := by
  rw [popByte, memRead_ok (by omega) (by omega), memWrite_ok (by omega) (by omega)]; rfl

theorem popByte_error (h : s.sp < -1 ∨ 254 < s.sp) : popByte s = .error (badAddress (s.sp + 1)) := by
  rw [popByte, memRead_error (by omega)]; rfl

/-! ### Ending an instruction -/

@[simp] theorem commit_ok : commit s (.ok t) = .next t := rfl

@[simp] theorem commit_error (r : Raise) : commit s (.error r) = .next (takeFault (instrRecord r s) s) := rfl

/-- An instruction always answers a next state: its own, or the one with the fault taken. -/
theorem commit_cases {x : Except Raise State} (h : commit s x = .next t) :
    x = .ok t ∨ ∃ r, x = .error r ∧ t = takeFault (instrRecord r s) s := by
  cases x with
  | ok u => injection h with h; exact .inl (h ▸ rfl)
  | error r => injection h with h; exact .inr ⟨r, rfl, h.symm⟩

/-! ### The ALU -/

/-- A binary operation on two registers: its result goes into `x[i]`. -/
theorem alu_binary {op : AluOp} (hn : op ≠ .not) (hu : ∀ n, op ≠ .unrecognized n)
    (hi : i.toNat < s.nregs) (hj : j.toNat < s.nregs) :
    alu op i j s = (aluBinary op j s.regs[i.toNat] s.regs[j.toNat]).map fun r => s.setRegs (s.regs.set i.toNat r) := by
  have h : alu op i j s = (do
      let (va, vb) ← readPair s i j
      let r ← aluBinary op j va vb
      writeReg s i r) := by
    cases op <;> first | rfl | exact absurd rfl hn | exact absurd rfl (hu _)
  rw [h, readPair_ok hi hj]
  show (aluBinary op j s.regs[i.toNat] s.regs[j.toNat]).bind (fun r => writeReg s i r) = _
  cases aluBinary op j s.regs[i.toNat] s.regs[j.toNat] with
  | ok r => exact writeReg_ok hi
  | error r => rfl

/-- NOT reads and checks only `x[i]` (rule R106). -/
theorem alu_not (hi : i.toNat < s.nregs) :
    alu .not i j s = .ok (s.setRegs (s.regs.set i.toNat (~~~s.regs[i.toNat]))) := by
  show (readReg s i).bind (fun va => writeReg s i (~~~va)) = _
  rw [readReg_ok hi]
  exact writeReg_ok hi

theorem alu_error_left {op : AluOp} (hu : ∀ n, op ≠ .unrecognized n) (hi : s.nregs ≤ i.toNat) :
    alu op i j s = .error (badRegister i) := by
  cases op <;> first
    | exact absurd rfl (hu _)
    | (rw [alu, readReg_error hi]; rfl)
    | (simp only [alu, readPair_error_left hi]; rfl)

theorem alu_error_right {op : AluOp} (hn : op ≠ .not) (hu : ∀ n, op ≠ .unrecognized n)
    (hi : i.toNat < s.nregs) (hj : s.nregs ≤ j.toNat) : alu op i j s = .error (badRegister j) := by
  cases op <;> first
    | exact absurd rfl hn
    | exact absurd rfl (hu _)
    | (simp only [alu, readPair_error_right hi hj]; rfl)

/-- In a terminal state the ALU interface changes nothing (log entry 13). -/
theorem aluUse_terminal {pc : Nat} {opcode : Byte} {op : AluOp} (h : s.run ≠ .running) : aluUse pc opcode op i j s = s := by
  cases hr : s.run <;> simp_all [aluUse]

theorem aluUse_ok {pc : Nat} {opcode : Byte} {op : AluOp} (hr : s.run = .running) (h : alu op i j s = .ok t) :
    aluUse pc opcode op i j s = t := by
  simp only [aluUse, hr, h]

theorem aluUse_error {pc : Nat} {opcode : Byte} {op : AluOp} {r : Raise} (hr : s.run = .running) (h : alu op i j s = .error r) :
    aluUse pc opcode op i j s = takeFault ⟨r.kind, pc, opcode, some i, some j, r.detail⟩ s := by
  simp only [aluUse, hr, h]

end Sys2Proof.Machine
end

