-- ==== Sys2Proof/Laws/PerInstr.lean ====
section
/-! SUPPORT. Facts about each instruction as syntax, one lemma a constructor. -/

namespace Sys2Proof.Laws.EncodedLength

/-- An encoding is one opcode byte and then the operands, three bytes at most, and the operands that are register indices stand first
(rules R60, R61). -/
def Statement (i : Instr) : Prop :=
  (encode i).length = 1 + i.operands.length ∧ (encode i).length ≤ 3 ∧ i.registers <+: i.operands

theorem add (a b : Byte) : Statement (.add a b) := ⟨rfl, by simp [encode, Instr.operands], List.prefix_rfl⟩
theorem mult (a b : Byte) : Statement (.mult a b) := ⟨rfl, by simp [encode, Instr.operands], List.prefix_rfl⟩
theorem prn (a : Byte) : Statement (.prn a) := ⟨rfl, by simp [encode, Instr.operands], List.prefix_rfl⟩
theorem ldi (a imm : Byte) : Statement (.ldi a imm) := ⟨rfl, by simp [encode, Instr.operands], List.prefix_append [a] [imm]⟩
theorem hlt : Statement .hlt := ⟨rfl, by simp [encode, Instr.operands], List.prefix_rfl⟩
theorem push (a : Byte) : Statement (.push a) := ⟨rfl, by simp [encode, Instr.operands], List.prefix_rfl⟩
theorem pop (a : Byte) : Statement (.pop a) := ⟨rfl, by simp [encode, Instr.operands], List.prefix_rfl⟩
theorem call (a : Byte) : Statement (.call a) := ⟨rfl, by simp [encode, Instr.operands], List.prefix_rfl⟩
theorem ret : Statement .ret := ⟨rfl, by simp [encode, Instr.operands], List.prefix_rfl⟩
theorem cmp (a b : Byte) : Statement (.cmp a b) := ⟨rfl, by simp [encode, Instr.operands], List.prefix_rfl⟩
theorem jmp (a : Byte) : Statement (.jmp a) := ⟨rfl, by simp [encode, Instr.operands], List.prefix_rfl⟩
theorem jeq (a : Byte) : Statement (.jeq a) := ⟨rfl, by simp [encode, Instr.operands], List.prefix_rfl⟩
theorem jne (a : Byte) : Statement (.jne a) := ⟨rfl, by simp [encode, Instr.operands], List.prefix_rfl⟩
theorem addi (a imm : Byte) : Statement (.addi a imm) := ⟨rfl, by simp [encode, Instr.operands], List.prefix_append [a] [imm]⟩
theorem st (a b : Byte) : Statement (.st a b) := ⟨rfl, by simp [encode, Instr.operands], List.prefix_rfl⟩

end Sys2Proof.Laws.EncodedLength
end

