-- ==== Sys2Proof/Laws/Step.lean ====
section
/-! SUPPORT. What a step does before the instruction's own rule runs: one law per case of the fetch, and one inversion of the step that
says everything it can answer. -/

namespace Sys2Proof.Machine

variable {s t : State}

theorem fetchOperands_ok (h : s.pc ≤ 253) : fetchOperands s = .ok (readByte s.mem (s.pc + 1), readByte s.mem (s.pc + 2)) := by
  rw [fetchOperands, memRead_ok (by omega) (by omega), memRead_ok (by omega) (by omega)]
  rfl

theorem fetchOperands_error (h0 : 254 ≤ s.pc) (h1 : s.pc ≤ 255) : fetchOperands s = .error (badAddress 256) := by
  rcases (by omega : s.pc = 254 ∨ s.pc = 255) with h | h
  · rw [fetchOperands, memRead_ok (by omega) (by omega), memRead_error (by omega), h]; rfl
  · rw [fetchOperands, memRead_error (by omega), h]; rfl

theorem fetch_notRunning (h : s.run ≠ .running) : fetch s = .error (.fault (.notRunning s.run)) := by
  unfold fetch; split <;> simp_all

theorem fetch_programEnd (h : s.run = .running) (hp : 256 ≤ s.pc) : fetch s = .error (.next (s.setRun .ended)) := by
  simp only [fetch, h, if_pos hp]

theorem fetch_unknown (h : s.run = .running) (hp : s.pc ≤ 255) (hd : dispatch (readByte s.mem s.pc) = none) :
    fetch s = .error (fetchFault ⟨.unknownOpcode, .none⟩ (s.latchOpcode (readByte s.mem s.pc))) := by
  simp only [fetch, h, if_neg (by omega : ¬ 256 ≤ s.pc), fetchInstr, State.latchOpcode_ir, hd]

theorem fetch_beyond {f : Format} (h : s.run = .running) (hp : s.pc ≤ 255) (hd : dispatch (readByte s.mem s.pc) = some f)
    (h254 : 254 ≤ s.pc) : fetch s = .error (fetchFault (badAddress 256) (s.latchOpcode (readByte s.mem s.pc))) := by
  simp only [fetch, h, if_neg (by omega : ¬ 256 ≤ s.pc), fetchInstr, State.latchOpcode_ir, hd]
  rw [fetchOperands_error (s := s.latchOpcode (readByte s.mem s.pc)) h254 hp]

theorem fetch_instr {f : Format} (h : s.run = .running) (hp : s.pc ≤ 253) (hd : dispatch (readByte s.mem s.pc) = some f) :
    fetch s = .ok (f.build (readByte s.mem (s.pc + 1)) (readByte s.mem (s.pc + 2)),
      (s.latchOpcode (readByte s.mem s.pc)).latchOperands (readByte s.mem (s.pc + 1)) (readByte s.mem (s.pc + 2))) := by
  simp only [fetch, h, if_neg (by omega : ¬ 256 ≤ s.pc), fetchInstr, State.latchOpcode_ir, hd]
  rw [fetchOperands_ok (s := s.latchOpcode (readByte s.mem s.pc)) hp, State.latchOpcode_mem, State.latchOpcode_pc]

/-- Everything a step that answers a next state can be: the program end, one of the two faults before an instruction runs, or the
instruction at pc, run with its three bytes latched. -/
theorem step_cases (h : step s = .next t) :
    s.run = .running ∧
    ((256 ≤ s.pc ∧ t = s.setRun .ended) ∨
     (s.pc ≤ 255 ∧ dispatch (readByte s.mem s.pc) = none ∧
       t = takeFault (fetchRecord ⟨.unknownOpcode, .none⟩ (s.latchOpcode (readByte s.mem s.pc))) (s.latchOpcode (readByte s.mem s.pc))) ∨
     (254 ≤ s.pc ∧ s.pc ≤ 255 ∧ (dispatch (readByte s.mem s.pc)).isSome ∧
       t = takeFault (fetchRecord (badAddress 256) (s.latchOpcode (readByte s.mem s.pc))) (s.latchOpcode (readByte s.mem s.pc))) ∨
     (s.pc ≤ 253 ∧ ∃ f, dispatch (readByte s.mem s.pc) = some f ∧
       exec (f.build (readByte s.mem (s.pc + 1)) (readByte s.mem (s.pc + 2)))
         ((s.latchOpcode (readByte s.mem s.pc)).latchOperands (readByte s.mem (s.pc + 1)) (readByte s.mem (s.pc + 2))) = .next t)) := by
  by_cases hr : s.run = .running
  · refine ⟨hr, ?_⟩
    rcases Nat.lt_or_ge 255 s.pc with hp | hp
    · rw [step, fetch_programEnd hr hp] at h
      injection h with h
      exact .inl ⟨hp, h.symm⟩
    · cases hd : dispatch (readByte s.mem s.pc) with
      | none =>
        rw [step, fetch_unknown hr hp hd] at h
        injection h with h
        exact .inr (.inl ⟨hp, rfl, h.symm⟩)
      | some f =>
        rcases Nat.lt_or_ge 253 s.pc with h254 | h253
        · rw [step, fetch_beyond hr hp hd h254] at h
          injection h with h
          exact .inr (.inr (.inl ⟨h254, hp, rfl, h.symm⟩))
        · rw [step, fetch_instr hr h253 hd] at h
          exact .inr (.inr (.inr ⟨h253, f, rfl, h⟩))
  · rw [step, fetch_notRunning hr] at h
    cases h

end Sys2Proof.Machine
end

