-- ==== Sys2Proof/Machine/Assembly.lean ====
section
/-! DEFINITION. The assembly text of an instruction (rule R69, decision D23). It is notation for a reader, no part of the core: nothing
in the machine reads it. -/

namespace Sys2Proof.Machine

/-- The mnemonic of rule R64. -/
def mnemonicText : Instr → List Char
  | .add _ _ => ['A', 'D', 'D']
  | .mult _ _ => ['M', 'U', 'L', 'T']
  | .prn _ => ['P', 'R', 'N']
  | .ldi _ _ => ['L', 'D', 'I']
  | .hlt => ['H', 'L', 'T']
  | .push _ => ['P', 'U', 'S', 'H']
  | .pop _ => ['P', 'O', 'P']
  | .call _ => ['C', 'A', 'L', 'L']
  | .ret => ['R', 'E', 'T']
  | .cmp _ _ => ['C', 'M', 'P']
  | .jmp _ => ['J', 'M', 'P']
  | .jeq _ => ['J', 'E', 'Q']
  | .jne _ => ['J', 'N', 'E']
  | .addi _ _ => ['A', 'D', 'D', 'I']
  | .st _ _ => ['S', 'T']

/-- An immediate in decimal. -/
def immediateText (v : Byte) : List Char := Nat.toDigits 10 v.toNat

/-- `R` and the decimal index, written for a faulting index too. -/
def registerText (i : Byte) : List Char := 'R' :: immediateText i

/-- The operands, separated by a comma and a space. -/
def operandText : Instr → List Char
  | .add a b | .mult a b | .cmp a b | .st a b => registerText a ++ [',', ' '] ++ registerText b
  | .ldi a imm | .addi a imm => registerText a ++ [',', ' '] ++ immediateText imm
  | .prn a | .push a | .pop a | .call a | .jmp a | .jeq a | .jne a => registerText a
  | .hlt | .ret => []

/-- The instruction's line: the mnemonic, then the operands where it has any. -/
def assemblyText (i : Instr) : List Char :=
  match operandText i with
  | [] => mnemonicText i
  | text => mnemonicText i ++ ' ' :: text

end Sys2Proof.Machine
end

