-- ==== Sys2Proof/Tests/Slice0.lean ====
section
/-! SUPPORT. Tests. Every expected result is the spec's: spec/95_test_vectors.md (the table or example named beside each test), or
worked by hand from the rule named. Each test is one step on a small state. -/

namespace Sys2Proof.Tests

open Sys2Proof.Machine Sys2Proof.Claims

/-- A running state with these registers and memory cells set, everything else as at reset. -/
def start (pc : Nat) (sp : Int) (fl : Byte) (regs mem : List (Nat × Byte)) : State :=
  { State.reset with
    pc := pc, sp := sp, fl := fl
    regs := regs.foldl (fun v r => v.set r.1 r.2) State.reset.regs
    mem := mem.foldl (fun m c => writeByte m c.1 c.2) [] }

/-- `start` with an instruction's bytes at pc. -/
def program (pc : Nat) (sp : Int) (fl : Byte) (bytes : List Byte) (regs : List (Nat × Byte)) (mem : List (Nat × Byte) := []) : State :=
  start pc sp fl regs (mem ++ bytes.zipIdx.map fun (b, k) => (pc + k, b))

/-- What is read off the next state; nothing where there is none. -/
def after {α : Type} (o : Outcome) (f : State → α) : Option α :=
  match o with
  | .next t => some (f t)
  | _ => none

/-- The run state and the record after a step. -/
def faultOf (s : State) : Option (RunState × Option FaultRecord) := after (step s) fun t => (t.run, t.fault)

/-! ### Well-formedness: one ill-formed term for each operand the check looks at (rules R21, R63, R247) -/

theorem test_wf_accepts : Instr.wf Config.nregs (.add 0#8 6#8) = true ∧ Instr.wf Config.nregs (.ldi 6#8 255#8) = true ∧
    Instr.wf Config.nregs .ret = true := by decide
theorem test_wf_refuses_first_of_two : Instr.wf Config.nregs (.add 7#8 0#8) = false ∧ Instr.wf Config.nregs (.st 7#8 0#8) = false := by decide
theorem test_wf_refuses_second_of_two : Instr.wf Config.nregs (.mult 0#8 7#8) = false ∧ Instr.wf Config.nregs (.cmp 0#8 255#8) = false := by decide
theorem test_wf_refuses_only_operand : Instr.wf Config.nregs (.push 7#8) = false ∧ Instr.wf Config.nregs (.jeq 200#8) = false := by decide
theorem test_wf_refuses_before_immediate : Instr.wf Config.nregs (.ldi 7#8 0#8) = false ∧ Instr.wf Config.nregs (.addi 8#8 0#8) = false := by decide

/-- P8: LDI R7, 1 on the machine with 8 registers writes register 7 and goes on; with 7 it faults (rule R9). -/
theorem test_nregs_is_an_argument :
    after (step ((State.resetWith 8).withFetchWord 24 0x010782)) (fun t => (t.regs[7]?, t.pc, t.run)) = some (some 1#8, 3, .running) ∧
    faultOf ((State.resetWith 7).withFetchWord 24 0x010782) =
      some (.faulted, some ⟨.outOfBounds, 0, 0x82#8, some 7#8, some 1#8, .register 7#8⟩) := by decide

/-! ### Decoding: one word a constructor, bit by bit from the opcode column of rule R64 -/

theorem test_decode_add : decode [0b10100000#8, 1#8, 2#8] = .ok (.add 1#8 2#8, []) := by decide
theorem test_decode_mult : decode [0b10100010#8, 0#8, 3#8] = .ok (.mult 0#8 3#8, []) := by decide
theorem test_decode_prn : decode [0b01000111#8, 6#8, 9#8] = .ok (.prn 6#8, [9#8]) := by decide
theorem test_decode_ldi : decode [0b10000010#8, 0#8, 8#8] = .ok (.ldi 0#8 8#8, []) := by decide
theorem test_decode_hlt : decode [0b00000001#8, 9#8] = .ok (.hlt, [9#8]) := by decide
theorem test_decode_push : decode [0b01000101#8, 5#8] = .ok (.push 5#8, []) := by decide
theorem test_decode_pop : decode [0b01000110#8, 2#8] = .ok (.pop 2#8, []) := by decide
theorem test_decode_call : decode [0b01010000#8, 1#8] = .ok (.call 1#8, []) := by decide
theorem test_decode_ret : decode [0b00010001#8] = .ok (.ret, []) := by decide
theorem test_decode_cmp : decode [0b10100111#8, 0#8, 1#8] = .ok (.cmp 0#8 1#8, []) := by decide
theorem test_decode_jmp : decode [0b01010100#8, 2#8] = .ok (.jmp 2#8, []) := by decide
theorem test_decode_jeq : decode [0b01010101#8, 200#8] = .ok (.jeq 200#8, []) := by decide
theorem test_decode_jne : decode [0b01010110#8, 4#8] = .ok (.jne 4#8, []) := by decide
theorem test_decode_addi : decode [0b10001000#8, 0#8, 10#8] = .ok (.addi 0#8 10#8, []) := by decide
theorem test_decode_st : decode [0b10000100#8, 1#8, 0#8] = .ok (.st 1#8 0#8, []) := by decide

/-- Rule R66: zero-filled memory, and LS-8's SUB, are no instructions. -/
theorem test_decode_unknown : decode [0x00#8, 1#8] = .error (.unknownOpcode 0x00#8) ∧
    decode [0xA1#8, 0#8, 1#8] = .error (.unknownOpcode 0xA1#8) := by decide
theorem test_decode_truncated : decode [] = .error .truncated ∧ decode [0xA0#8, 1#8] = .error .truncated ∧
    decode [0x45#8] = .error .truncated := by decide
/-- LDI R0, 8 as the opcode table numbers its bits, and an HLT whose operand words are absent. -/
theorem test_decode_table_word : decodeTableWord 24 0x080082 = some (.ldi 0#8 8#8) ∧ decodeTableWord 8 0x01 = some .hlt := by decide

/-- Rule R69's formats, with the faulting index of table 2.5. -/
theorem test_assembly_text : assemblyText (.ldi 0#8 8#8) = ['L', 'D', 'I', ' ', 'R', '0', ',', ' ', '8'] ∧
    assemblyText (.jeq 200#8) = ['J', 'E', 'Q', ' ', 'R', '2', '0', '0'] ∧ assemblyText .hlt = ['H', 'L', 'T'] := by decide

/-! ### Arithmetic (table 2.2) -/

theorem test_add_wraps : after (step (program 10 255 0#8 [0xA0#8, 1#8, 2#8] [(1, 200#8), (2, 100#8)]))
    (fun t => (t.regs[1]?, t.regs[2]?, t.fl, t.pc)) = some (some 44#8, some 100#8, 0#8, 13) := by decide
theorem test_add_same_register : after (step (program 10 255 4#8 [0xA0#8, 1#8, 1#8] [(1, 128#8)]))
    (fun t => (t.regs[1]?, t.fl, t.pc)) = some (some 0#8, 4#8, 13) := by decide
theorem test_mult_low_byte : after (step (program 10 255 0#8 [0xA2#8, 0#8, 1#8] [(0, 255#8), (1, 255#8)]))
    (fun t => (t.regs[0]?, t.pc)) = some (some 1#8, 13) := by decide
theorem test_mult_square : after (step (program 10 255 0#8 [0xA2#8, 0#8, 0#8] [(0, 20#8)]))
    (fun t => (t.regs[0]?, t.pc)) = some (some 144#8, 13) := by decide
theorem test_cmp_unsigned : after (step (program 10 255 0#8 [0xA7#8, 0#8, 1#8] [(0, 255#8), (1, 1#8)]))
    (fun t => (t.fl, t.regs[0]?, t.pc)) = some (0b010#8, some 255#8, 13) := by decide
theorem test_cmp_less_and_equal : after (step (program 10 255 0#8 [0xA7#8, 0#8, 1#8] [(0, 5#8), (1, 9#8)])) (·.fl) = some 0b100#8 ∧
    after (step (program 10 255 4#8 [0xA7#8, 4#8, 4#8] [(4, 99#8)])) (·.fl) = some 0b001#8 := by decide
/-- E1. -/
theorem test_addi_wraps : after (step (program 10 255 0#8 [0x88#8, 0#8, 10#8] [(0, 250#8)]))
    (fun t => (t.regs[0]?, t.pc)) = some (some 4#8, 13) := by decide
theorem test_addi_decrements : after (step (program 10 255 0#8 [0x88#8, 0#8, 255#8] [(0, 1#8)])) (·.regs[0]?) = some (some 0#8) := by decide

/-! ### Data movement (table 2.3) -/

theorem test_ldi_last_register : after (step (program 10 255 0#8 [0x82#8, 6#8, 255#8] [])) (fun t => (t.regs[6]?, t.pc)) =
    some (some 255#8, 13) := by decide
theorem test_ldi_register_7 : faultOf (program 10 255 0#8 [0x82#8, 7#8, 1#8] []) =
    some (.faulted, some ⟨.outOfBounds, 10, 0x82#8, some 7#8, some 1#8, .register 7#8⟩) := by decide
theorem test_st_stores : after (step (program 10 255 0#8 [0x84#8, 1#8, 0#8] [(1, 200#8), (0, 42#8)]))
    (fun t => (byteAt t 200, byteAt t 201, t.pc)) = some (42#8, 0#8, 13) := by decide
/-- The ST overwrites its own opcode and is itself unchanged (rule R53). -/
theorem test_st_over_itself : after (step (program 10 255 0#8 [0x84#8, 1#8, 0#8] [(1, 10#8), (0, 0x47#8)]))
    (fun t => (byteAt t 10, t.pc)) = some (0x47#8, 13) := by decide

/-! ### Stack (table 2.4) -/

theorem test_push_last_cell : after (step (program 10 0 0#8 [0x45#8, 0#8] [(0, 7#8)]))
    (fun t => (byteAt t 0, t.sp, t.pc)) = some (7#8, -1, 12) := by decide
/-- The register is checked before the stack address. -/
theorem test_push_register_first : faultOf (program 10 (-1) 0#8 [0x45#8, 7#8] []) =
    some (.faulted, some ⟨.outOfBounds, 10, 0x45#8, some 7#8, some 0#8, .register 7#8⟩) := by decide
theorem test_pop_clears : after (step (program 10 100 0#8 [0x46#8, 2#8] [] [(101, 5#8)]))
    (fun t => (t.regs[2]?, byteAt t 101, t.sp, t.pc)) = some (some 5#8, 0#8, 101, 12) := by decide
theorem test_pop_empty : faultOf (program 10 255 0#8 [0x46#8, 2#8] []) =
    some (.faulted, some ⟨.outOfBounds, 10, 0x46#8, some 2#8, some 0#8, .address 256⟩) := by decide

/-! ### Control flow (table 2.5) -/

theorem test_call : after (step (program 6 255 0#8 [0x50#8, 1#8] [(1, 11#8)]))
    (fun t => (t.regs[5]?, byteAt t 255, t.sp, t.pc)) = some (some 8#8, 8#8, 254, 11) := by decide
theorem test_call_r5_falls_through : after (step (program 0 255 0#8 [0x50#8, 5#8] [(5, 99#8)]))
    (fun t => (t.regs[5]?, byteAt t 255, t.sp, t.pc)) = some (some 2#8, 2#8, 254, 2) := by decide
theorem test_ret : after (step (program 10 250 0#8 [0x11#8] [] [(251, 200#8)]))
    (fun t => (t.regs[5]?, byteAt t 251, t.sp, t.pc)) = some (some 200#8, 0#8, 251, 200) := by decide
/-- P5. -/
theorem test_ret_empty : faultOf (program 0 255 0#8 [0x11#8] []) =
    some (.faulted, some ⟨.outOfBounds, 0, 0x11#8, some 0#8, some 0#8, .address 256⟩) := by decide
theorem test_jmp : after (step (program 30 255 0#8 [0x54#8, 2#8] [(2, 9#8)])) (fun t => (t.pc, t.sp)) = some (9, 255) := by decide
theorem test_jmp_register_7 : faultOf (program 30 255 0#8 [0x54#8, 7#8] []) =
    some (.faulted, some ⟨.outOfBounds, 30, 0x54#8, some 7#8, some 0#8, .register 7#8⟩) := by decide
/-- The index of a jump that is not taken is not checked. -/
theorem test_jeq_not_taken : after (step (program 30 255 2#8 [0x55#8, 200#8] [])) (fun t => (t.pc, t.run)) = some (32, .running) := by decide
theorem test_jeq_taken : after (step (program 30 255 1#8 [0x55#8, 3#8] [(3, 40#8)])) (·.pc) = some 40 ∧
    faultOf (program 30 255 1#8 [0x55#8, 200#8] []) =
      some (.faulted, some ⟨.outOfBounds, 30, 0x55#8, some 200#8, some 0#8, .register 200#8⟩) := by decide
/-- With fl = 0 JNE is not taken. -/
theorem test_jne_before_cmp : after (step (program 30 255 0#8 [0x56#8, 2#8] [(2, 9#8)])) (·.pc) = some 32 ∧
    after (step (program 30 255 1#8 [0x56#8, 2#8] [(2, 9#8)])) (·.pc) = some 32 := by decide
theorem test_jne_taken : after (step (program 30 255 4#8 [0x56#8, 2#8] [(2, 9#8)])) (·.pc) = some 9 ∧
    after (step (program 30 255 2#8 [0x56#8, 2#8] [(2, 9#8)])) (·.pc) = some 9 := by decide

/-! ### Output and halt (table 2.6) -/

theorem test_prn : after (step (program 3 255 0#8 [0x47#8, 6#8] [(6, 255#8)])) (fun t => (t.out, t.pc)) = some ([255#8], 5) := by decide
theorem test_prn_register_7 : after (step (program 3 255 0#8 [0x47#8, 7#8] [])) (fun t => (t.run, t.out, t.pc)) =
    some (.faulted, [], 3) := by decide
theorem test_hlt_at_253 : after (step (program 253 255 0#8 [0x01#8] [])) (fun t => (t.run, t.pc)) = some (.halted, 253) := by decide
/-- HLT at 254 and at 255 faults at operand fetch, before its operands exist. -/
theorem test_hlt_at_254 : faultOf (program 254 255 0#8 [0x01#8] []) =
      some (.faulted, some ⟨.outOfBounds, 254, 0x01#8, none, none, .address 256⟩) ∧
    faultOf (program 255 255 0#8 [0x01#8] []) =
      some (.faulted, some ⟨.outOfBounds, 255, 0x01#8, none, none, .address 256⟩) := by decide

/-! ### Loop and dispatch (table 2.7), reset and load -/

theorem test_program_end : after (step (start 256 255 0#8 [] [])) (fun t => (t.run, t.pc)) = some (.ended, 256) := by decide
theorem test_unknown_before_operands : faultOf (program 254 255 0#8 [0xFF#8] []) =
    some (.faulted, some ⟨.unknownOpcode, 254, 0xFF#8, none, none, .none⟩) := by decide
theorem test_three_bytes_at_253 : after (step (program 253 255 0#8 [0x82#8, 1#8, 5#8] [])) (fun t => (t.regs[1]?, t.pc, t.run)) =
    some (some 5#8, 256, .running) := by decide
theorem test_halted_takes_no_step : after (step { State.reset with run := .halted }) (·.pc) = none := by decide
/-- Rule R233: LDI R0, 8; PRN R0; HLT. -/
theorem test_default_image : defaultImage = encode (.ldi 0#8 8#8) ++ encode (.prn 0#8) ++ encode .hlt := by decide
/-- Rule R233. -/
theorem test_load_default : (boot 7 defaultImage).toOption.map (fun t => (byteAt t 0, byteAt t 2, byteAt t 5, byteAt t 6)) =
    some (0x82#8, 0x08#8, 0x01#8, 0x00#8) := by decide
theorem test_with_fetch_word : after (step (State.reset.withFetchWord 24 0x080082)) (fun t => (t.regs[0]?, t.pc)) = some (some 8#8, 3) := by decide

/-! ### The ALU interface (table 2.1) -/

theorem test_alu_sub_and_shift : (alu .sub 0#8 1#8 (start 0 255 0#8 [(0, 3#8), (1, 5#8)] [])).toOption.map (·.regs[0]?) = some (some 254#8) ∧
    (alu .shl 0#8 1#8 (start 0 255 0#8 [(0, 1#8), (1, 8#8)] [])).toOption.map (·.regs[0]?) = some (some 0#8) ∧
    (alu .shr 0#8 1#8 (start 0 255 0#8 [(0, 0x83#8), (1, 1#8)] [])).toOption.map (·.regs[0]?) = some (some 0x41#8) ∧
    (alu .not 0#8 9#8 (start 0 255 0#8 [(0, 0xCC#8)] [])).toOption.map (·.regs[0]?) = some (some 0x33#8) := by decide
/-- E6. -/
theorem test_alu_mod : (alu .mod 0#8 1#8 (start 0 255 0#8 [(0, 17#8), (1, 5#8)] [])).toOption.map (·.regs[0]?) = some (some 2#8) ∧
    (aluUse 0 0#8 .mod 0#8 1#8 (start 0 255 0#8 [(0, 200#8)] [])).fault =
      some ⟨.divisionByZero, 0, 0#8, some 0#8, some 1#8, .register 1#8⟩ ∧
    (aluUse 0 0#8 .mod 0#8 1#8 (start 0 255 0#8 [(0, 200#8)] [])).regs[0]? = some 200#8 := by decide

/-- A record once set stays (rules R31, R202), and its detail for a tag outside the nine is none (rule R31). -/
theorem test_alu_record_is_set_once :
    (aluUse 0 0#8 .mod 0#8 1#8 (aluUse 9 0#8 (.unrecognized 9) 2#8 3#8 State.reset)).fault =
      some ⟨.unsupportedOperation (.unrecognized 9), 9, 0#8, some 2#8, some 3#8, .none⟩ := by decide

/-! ### Witnesses: concrete values that meet the hypotheses of each statement together, a clause at its boundary -/

theorem witness_LoadWritesImageFromZero : ([] : List Byte).length ≤ 256 ∧ (List.replicate 256 1#8).length ≤ 256 ∧
    255 < (List.replicate 256 1#8).length ∧ 256 < (List.replicate 257 1#8).length := by
  rw [List.length_replicate, List.length_replicate]; decide
theorem witness_SourceLinesParse : '2' ∈ lineText ['1', '2', '#', '0'] ∧ '2' ≠ '0' ∧ '2' ≠ '1' := by decide
theorem witness_DecodeEncodeAgree : decode [0x11#8, 0x00#8] = .ok (.ret, [0x00#8]) := by decide
theorem witness_OtherBytesAreUnknownOpcode : 0x00#8 ∉ opcodes ∧ 0xFF#8 ∉ opcodes ∧
    (program 255 255 0#8 [0xFF#8] []).run = .running ∧ (program 255 255 0#8 [0xFF#8] []).pc ≤ 255 ∧
    byteAt (program 255 255 0#8 [0xFF#8] []) 255 ∉ opcodes := by decide
theorem witness_UnusedSlotsIgnored : (∃ f, dispatch 0x45#8 = some f ∧ f.width ≤ 2) ∧ ∃ f, dispatch 0x11#8 = some f ∧ f.width = 1 :=
  ⟨⟨_, rfl, by decide⟩, _, rfl, rfl⟩
theorem witness_StepRunsDecodedInstruction :
    let s := program 253 255 0#8 [0x82#8, 1#8, 5#8] []
    s.run = .running ∧ s.pc ≤ 253 ∧ decode [byteAt s s.pc, byteAt s (s.pc + 1), byteAt s (s.pc + 2)] = .ok (.ldi 1#8 5#8, []) := by
  decide
/-- Every known opcode stands at 253, at 254 and at 255: the hypotheses of `FaultsAtOperandFetch` in every instruction's rule too. -/
theorem witness_OperandFetchAlwaysBothSlots : ∀ opcode ∈ opcodes, ∀ pc ∈ [253, 254, 255],
    (program pc 255 0#8 [opcode] []).run = .running ∧ byteAt (program pc 255 0#8 [opcode] []) pc = opcode ∧
    (dispatch opcode).isSome = true := by decide
theorem witness_ProgramEndEndsRun : (start 256 255 0#8 [] []).run = .running ∧ 256 ≤ (start 256 255 0#8 [] []).pc := by decide
theorem witness_TerminalStatesAbsorb : ({ State.reset with run := .halted } : State).run ≠ .running ∧
    Steps { State.reset with run := .halted } { State.reset with run := .halted } := ⟨by decide, .refl _⟩

/-- A state of each kind the step meets in the invariants: POP R6 with its cell at the bottom of the stack. -/
def popState : State := program 253 (-1) 4#8 [0x46#8, 6#8] [] [(0, 9#8)]

theorem witness_StepKeepsRanges : popState.InRange ∧ ∃ t, step popState = .next t :=
  ⟨⟨by decide, by decide, by decide, by decide, by decide, by decide⟩, _, rfl⟩
theorem witness_StepKeepsRunCoherence : popState.InRange ∧ popState.RunCoherent ∧ ∃ t, step popState = .next t :=
  ⟨witness_StepKeepsRanges.1, rfl, _, rfl⟩
theorem witness_StepKeepsRegisterCount : ∃ t, step popState = .next t := ⟨_, rfl⟩
/-- A step that leaves no fault, and one that leaves a fault about an address. -/
theorem witness_MoreRegistersChangeOnlyIndexFaults :
    (∃ t, step popState = .next t ∧ ∀ r i, t.fault = some r → r.detail ≠ .register i) ∧
    ∃ t, step (program 10 255 0#8 [0x46#8, 6#8] []) = .next t ∧ t.run = .faulted ∧
      ∀ r i, t.fault = some r → r.detail ≠ .register i :=
  ⟨⟨_, rfl, nofun⟩, _, rfl, rfl, by rintro _ _ ⟨⟩; nofun⟩
theorem witness_ReachableStatesMeetTheInvariants : ∀ n, n = 7 ∨ n = 8 → ∃ s, Reachable n s := fun _ _ => ⟨_, defaultImage, _, rfl, .refl _⟩
theorem witness_PcAndSpFitNineBits : (start 256 (-1) 0#8 [] []).InRange :=
  ⟨by decide, by decide, by decide, by decide, by decide, by decide⟩
theorem witness_FaultsArePrecise : (∃ t, step (program 10 255 0#8 [0x45#8, 7#8] []) = .next t ∧ t.run = .faulted) ∧
    Steps { State.reset with run := .faulted } { State.reset with run := .faulted } := ⟨⟨_, rfl, rfl⟩, .refl _⟩
theorem witness_WhatAStepCanRaise : (program 10 (-1) 0#8 [0x45#8, 6#8] []).InRange ∧
    (program 10 (-1) 0#8 [0x45#8, 6#8] []).fault = none ∧
    ∃ t r, step (program 10 (-1) 0#8 [0x45#8, 6#8] []) = .next t ∧ t.fault = some r :=
  ⟨⟨by decide, by decide, by decide, by decide, by decide, by decide⟩, rfl, _, _, rfl, rfl⟩
theorem witness_WellFormedInstructionsDoNotFault : ∀ sp ∈ [0, 254], let s := program 253 sp 0#8 [0x46#8, 6#8] []
    s.run = .running ∧ s.pc ≤ 253 ∧ decode [byteAt s s.pc, byteAt s (s.pc + 1), byteAt s (s.pc + 2)] = .ok (.pop 6#8, [byteAt s 255]) ∧
    Instr.wf s.nregs (.pop 6#8) = true ∧ 5 < s.nregs ∧ 0 ≤ s.sp ∧ s.sp ≤ 254 := by decide
theorem witness_OnlyCmpChangesFlags : ∃ t, step (program 10 255 0#8 [0xA7#8, 0#8, 6#8] []) = .next t ∧
    t.fl ≠ (program 10 255 0#8 [0xA7#8, 0#8, 6#8] []).fl := ⟨_, rfl, by decide⟩
theorem witness_OnlyStackInstructionsMoveSp :
    (∃ t, step (program 10 0 0#8 [0x50#8, 6#8] []) = .next t ∧ t.sp ≠ (program 10 0 0#8 [0x50#8, 6#8] []).sp) ∧
    ∃ t, step popState = .next t ∧ t.sp ≠ popState.sp := ⟨⟨_, rfl, by decide⟩, _, rfl, by decide⟩
theorem witness_OnlyStoresChangeMemory :
    (∃ t, step (program 10 0 0#8 [0x50#8, 6#8] []) = .next t ∧ byteAt t 0 ≠ byteAt (program 10 0 0#8 [0x50#8, 6#8] []) 0) ∧
    (∃ t, step popState = .next t ∧ byteAt t 0 ≠ byteAt popState 0) ∧
    ∃ t, step (program 10 0 0#8 [0x84#8, 6#8, 6#8] [(6, 255#8)]) = .next t ∧
      byteAt t 255 ≠ byteAt (program 10 0 0#8 [0x84#8, 6#8, 6#8] [(6, 255#8)]) 255 :=
  ⟨⟨_, rfl, by decide⟩, ⟨_, rfl, by decide⟩, _, rfl, by decide⟩
theorem witness_OnlyNamedRegisterChanges :
    (∃ t, step popState = .next t ∧ t.regs[6]? ≠ popState.regs[6]?) ∧
    ∃ t, step (program 10 0 0#8 [0x50#8, 6#8] []) = .next t ∧ t.regs[5]? ≠ (program 10 0 0#8 [0x50#8, 6#8] []).regs[5]? :=
  ⟨⟨_, rfl, by decide⟩, _, rfl, by decide⟩
theorem witness_OnlyPrnAppendsOutput : ∃ t, step (program 10 0 0#8 [0x47#8, 6#8] []) = .next t ∧
    t.out ≠ (program 10 0 0#8 [0x47#8, 6#8] []).out := ⟨_, rfl, by decide⟩
theorem witness_PcReaches256OnlyFrom253 : (program 253 255 0#8 [0x82#8, 1#8, 5#8] []).pc ≤ 255 ∧
    ∃ t, step (program 253 255 0#8 [0x82#8, 1#8, 5#8] []) = .next t ∧ t.pc = 256 := ⟨by decide, _, rfl, rfl⟩
theorem witness_MemReadAfterMemWrite : ((0 : Int) ≤ 0 ∧ (0 : Int) ≤ 255) ∧ ((0 : Int) ≤ 255 ∧ (255 : Int) ≤ 255) ∧
    ((-1 : Int) < 0) ∧ (255 : Int) < 256 := by decide
/-- Register 6 is the last that exists and 7 the first that does not: every clause of the rules of ADD, MULT, CMP and ST, and of the
two ALU statements over registers `i` and `j`. -/
theorem witness_AddMultCmpStRules_AluResults : ((6#8).toNat < State.reset.nregs ∧ (0#8).toNat < State.reset.nregs) ∧
    State.reset.nregs ≤ (7#8).toNat ∧ ((6#8).toNat < State.reset.nregs ∧ State.reset.nregs ≤ (7#8).toNat) := by decide
/-- Every clause of the rules of ADDI, LDI, JMP and PRN. -/
theorem witness_AddiLdiJmpPrnRules : (6#8).toNat < State.reset.nregs ∧ State.reset.nregs ≤ (7#8).toNat ∧ State.reset.nregs ≤ (255#8).toNat := by decide
theorem witness_AluChecks : (∀ n, AluOp.mod ≠ .unrecognized n) ∧ AluOp.mod ≠ .not ∧ (6#8).toNat < State.reset.nregs ∧
    State.reset.nregs ≤ (7#8).toNat := ⟨nofun, nofun, by decide, by decide⟩
theorem witness_AluFaultRecordsItsIndices : State.reset.run = .running ∧ (∃ t, alu .add 0#8 6#8 State.reset = .ok t) ∧
    (∃ h : (6#8).toNat < State.reset.nregs, State.reset.regs[(6#8).toNat] = 0#8) ∧ (∀ n, AluOp.mod ≠ .unrecognized n) ∧
    AluOp.mod ≠ .not ∧ State.reset.nregs ≤ (7#8).toNat ∧ ({ State.reset with run := .faulted } : State).run ≠ .running :=
  ⟨rfl, ⟨_, rfl⟩, ⟨by decide, by decide⟩, nofun, nofun, by decide, by decide⟩
/-- Every clause of the rules of PUSH and CALL, and of the push-pop round trip: sp at both ends of the stack, and full. -/
theorem witness_PushCallRules_PushPopRoundTrip : (∀ sp ∈ [0, 255], (6#8).toNat < State.reset.nregs ∧ 5 < (start 253 sp 0#8 [] []).nregs ∧
    (start 253 sp 0#8 [] []).pc ≤ 253 ∧ 0 ≤ (start 253 sp 0#8 [] []).sp ∧ (start 253 sp 0#8 [] []).sp ≤ 255) ∧
    State.reset.nregs ≤ (7#8).toNat ∧ ((6#8).toNat < State.reset.nregs ∧ (start 253 (-1) 0#8 [] []).sp = -1) := by decide
/-- Every clause of the rules of POP and RET: a cell above sp at both ends of the stack, and none. -/
theorem witness_PopRetRules : (∀ sp ∈ [-1, 254], (6#8).toNat < State.reset.nregs ∧ 5 < (start 10 sp 0#8 [] []).nregs ∧
    -1 ≤ (start 10 sp 0#8 [] []).sp ∧ (start 10 sp 0#8 [] []).sp ≤ 254) ∧
    State.reset.nregs ≤ (7#8).toNat ∧ ((6#8).toNat < State.reset.nregs ∧ (start 10 255 0#8 [] []).sp = 255) := by decide
/-- Every clause of the rules of JEQ and JNE: each of the four values of fl under the clause it belongs to, with a register that
exists and one that does not. -/
theorem witness_JeqJneRules : (6#8).toNat < State.reset.nregs ∧ State.reset.nregs ≤ (7#8).toNat ∧ (start 10 255 1#8 [] []).fl = 0b001#8 ∧
    (∀ fl ∈ [0#8, 2#8, 4#8], (start 10 255 fl [] []).fl ≠ 0b001#8) ∧
    (∀ fl ∈ [2#8, 4#8], (start 10 255 fl [] []).fl = 0b010#8 ∨ (start 10 255 fl [] []).fl = 0b100#8) ∧
    ∀ fl ∈ [0#8, 1#8], (start 10 255 fl [] []).fl ≠ 0b010#8 ∧ (start 10 255 fl [] []).fl ≠ 0b100#8 := by decide
theorem witness_StepEnabledExactlyWhenRunning : State.reset.run = .running ∧
    ({ State.reset with run := .ended } : State).run ≠ .running := by decide
/-- A CALL whose routine has left sp and the top of the stack alone and changed a register. -/
theorem witness_CallThenRetReturns : ∃ t u : State, exec (.call 1#8) (start 253 0 0#8 [(1, 11#8)] []) = .next t ∧
    t.run ≠ .faulted ∧ (start 253 0 0#8 [(1, 11#8)] []).run = .running ∧ u ≠ t ∧ u.nregs = t.nregs ∧ u.sp = t.sp ∧
    byteAt u (t.sp + 1).toNat = byteAt t (t.sp + 1).toNat :=
  ⟨_, (start 77 (-1) 0#8 [(5, 1#8)] [(0, 255#8)]), rfl, by decide, rfl, by decide, rfl, rfl, by decide⟩
theorem witness_NestedCallsReturn : ∃ t u v : State, exec (.call 1#8) (start 253 1 0#8 [(1, 253#8)] []) = .next t ∧ t.run = .running ∧
    t.pc ≤ 253 ∧ exec (.call 1#8) t = .next u ∧ u.run = .running ∧ exec .ret u = .next v :=
  ⟨_, _, _, rfl, rfl, by decide, rfl, rfl, rfl⟩

end Sys2Proof.Tests
end

/-! ### Instructions and steps as relations

What an instruction and a step can answer, said once (`exec_cases`, `stepsTo_of_step`), and the claims about every step and every
run that follow by a case split on it. -/

namespace Sys2Proof.Machine

/-- `Completes s i t`: the instruction `i`, run in `s`, raises nothing and ends in `t`. One constructor per outcome: its premises are
the checks the instruction passes, its state is the whole effect. Tied to the model by `exec_of_completes` and `exec_cases`. -/
inductive Completes (s : State) : Instr → State → Prop where
  | add {a b : Byte} (ha : a.toNat < s.nregs) (hb : b.toNat < s.nregs) :
      Completes s (.add a b)
        ((s.setRegs (s.regs.set a.toNat (s.regs[a.toNat] + s.regs[b.toNat]))).setPc (s.pc + 3))
  | mult {a b : Byte} (ha : a.toNat < s.nregs) (hb : b.toNat < s.nregs) :
      Completes s (.mult a b)
        ((s.setRegs (s.regs.set a.toNat (s.regs[a.toNat] * s.regs[b.toNat]))).setPc (s.pc + 3))
  | prn {a : Byte} (ha : a.toNat < s.nregs) :
      Completes s (.prn a) ((s.emit s.regs[a.toNat]).setPc (s.pc + 2))
  | ldi {a imm : Byte} (ha : a.toNat < s.nregs) :
      Completes s (.ldi a imm) ((s.setRegs (s.regs.set a.toNat imm)).setPc (s.pc + 3))
  | hlt : Completes s .hlt (s.setRun .halted)
  | push {a : Byte} (ha : a.toNat < s.nregs) (h0 : 0 ≤ s.sp) (h1 : s.sp ≤ 255) :
      Completes s (.push a)
        (((s.setMem (writeByte s.mem s.sp.toNat s.regs[a.toNat])).setSp (s.sp - 1)).setPc (s.pc + 2))
  | pop {a : Byte} (ha : a.toNat < s.nregs) (h0 : -1 ≤ s.sp) (h1 : s.sp ≤ 254) :
      Completes s (.pop a)
        ((((s.setMem (writeByte s.mem (s.sp + 1).toNat 0#8)).setSp (s.sp + 1)).setRegs
          (s.regs.set a.toNat (readByte s.mem (s.sp + 1).toNat))).setPc (s.pc + 2))
  | call {a : Byte} (ha : a.toNat < s.nregs) (hl : 5 < s.nregs) (h0 : 0 ≤ s.sp) (h1 : s.sp ≤ 255) :
      Completes s (.call a)
        ((((s.setRegs (s.regs.set 5 (returnAddress s))).setMem
          (writeByte s.mem s.sp.toNat (returnAddress s))).setSp (s.sp - 1)).setPc
          ((s.regs.set 5 (returnAddress s))[a.toNat]'(by rwa [List.length_set])).toNat)
  | ret (hl : 5 < s.nregs) (h0 : -1 ≤ s.sp) (h1 : s.sp ≤ 254) :
      Completes s .ret
        ((((s.setMem (writeByte s.mem (s.sp + 1).toNat 0#8)).setSp (s.sp + 1)).setRegs
          (s.regs.set 5 (readByte s.mem (s.sp + 1).toNat))).setPc (readByte s.mem (s.sp + 1).toNat).toNat)
  | cmp {a b : Byte} (ha : a.toNat < s.nregs) (hb : b.toNat < s.nregs) :
      Completes s (.cmp a b) ((s.setFl (compareFlags s.regs[a.toNat] s.regs[b.toNat])).setPc (s.pc + 3))
  | jmp {a : Byte} (ha : a.toNat < s.nregs) :
      Completes s (.jmp a) (s.setPc s.regs[a.toNat].toNat)
  | jeq_taken {a : Byte} (hf : jeqTaken s.fl = true) (ha : a.toNat < s.nregs) :
      Completes s (.jeq a) (s.setPc s.regs[a.toNat].toNat)
  | jeq_not_taken {a : Byte} (hf : jeqTaken s.fl = false) : Completes s (.jeq a) (s.setPc (s.pc + 2))
  | jne_taken {a : Byte} (hf : jneTaken s.fl = true) (ha : a.toNat < s.nregs) :
      Completes s (.jne a) (s.setPc s.regs[a.toNat].toNat)
  | jne_not_taken {a : Byte} (hf : jneTaken s.fl = false) : Completes s (.jne a) (s.setPc (s.pc + 2))
  | addi {a imm : Byte} (ha : a.toNat < s.nregs) :
      Completes s (.addi a imm) ((s.setRegs (s.regs.set a.toNat (s.regs[a.toNat] + imm))).setPc (s.pc + 3))
  | st {a b : Byte} (ha : a.toNat < s.nregs) (hb : b.toNat < s.nregs) :
      Completes s (.st a b)
        ((s.setMem (writeByte s.mem s.regs[a.toNat].toNat s.regs[b.toNat])).setPc (s.pc + 3))

/-- Whether `i` reads its first register operand in `s`: JEQ and JNE do so only when they are taken (rules R153, R154). -/
def State.readsFirst (s : State) (i : Instr) : Bool :=
  match i with
  | .jeq _ => jeqTaken s.fl
  | .jne _ => jneTaken s.fl
  | _ => true

/-- `Raises s i r`: the instruction `i`, run in `s`, raises `r`. One constructor per check that can be the first to fail, in the order
the instruction makes them (rule R207). Tied to the model by `exec_of_raises` and `exec_cases`. -/
inductive Raises (s : State) : Instr → Raise → Prop where
  | bad_first {i : Instr} {a : Byte} {l : List Byte} (hi : i.registers = a :: l) (hr : s.readsFirst i = true)
      (ha : s.nregs ≤ a.toNat) :
      Raises s i (badRegister a)
  | bad_second {i : Instr} {a b : Byte} (hi : i.registers = [a, b]) (ha : a.toNat < s.nregs) (hb : s.nregs ≤ b.toNat) :
      Raises s i (badRegister b)
  | push_full {a : Byte} (ha : a.toNat < s.nregs) (hs : s.sp < 0 ∨ 255 < s.sp) : Raises s (.push a) (badAddress s.sp)
  | pop_empty {a : Byte} (ha : a.toNat < s.nregs) (hs : s.sp < -1 ∨ 254 < s.sp) : Raises s (.pop a) (badAddress (s.sp + 1))
  | call_full {a : Byte} (ha : a.toNat < s.nregs) (hl : 5 < s.nregs) (hs : s.sp < 0 ∨ 255 < s.sp) :
      Raises s (.call a) (badAddress s.sp)
  | ret_empty (hs : s.sp < -1 ∨ 254 < s.sp) : Raises s .ret (badAddress (s.sp + 1))
  | call_no_link {a : Byte} (ha : a.toNat < s.nregs) (hl : s.nregs ≤ 5) : Raises s (.call a) (badRegister 5#8)
  | ret_no_link (h0 : -1 ≤ s.sp) (h1 : s.sp ≤ 254) (hl : s.nregs ≤ 5) : Raises s .ret (badRegister 5#8)

variable {s t u : State} {i : Instr} {r : Raise}

theorem alu_add_ok {a b : Byte} (ha : a.toNat < s.nregs) (hb : b.toNat < s.nregs) :
    alu .add a b s = .ok (s.setRegs (s.regs.set a.toNat (s.regs[a.toNat] + s.regs[b.toNat]))) :=
  alu_binary (op := .add) nofun nofun ha hb

theorem exec_of_completes (h : Completes s i t) : exec i s = .next t := by
  cases h with
  | add ha hb => simp only [exec, execAdd, alu_add_ok ha hb]; rfl
  | mult ha hb => simp only [exec, execMult, readPair_ok ha hb, ok_bind, writeReg_ok ha]; rfl
  | prn ha => simp only [exec, execPrn, readReg_ok ha]; rfl
  | ldi ha => simp only [exec, execLdi, writeReg_ok ha]; rfl
  | hlt => rfl
  | push ha h0 h1 => simp only [exec, execPush, readReg_ok ha, ok_bind, pushByte_ok h0 h1]; rfl
  | pop ha h0 h1 =>
    simp only [exec, execPop, checkReg_ok ha, ok_bind, popByte_ok h0 h1]
    rw [writeReg_ok (by exact ha)]; rfl
  | call ha hl h0 h1 =>
    simp only [exec, execCall, checkReg_ok ha, ok_bind]
    rw [writeReg_ok (by exact hl), ok_bind, pushByte_ok (by exact h0) (by exact h1), ok_bind,
      readTarget_ok (by simpa using ha)]
    rfl
  | ret hl h0 h1 =>
    simp only [exec, execRet, popByte_ok h0 h1, ok_bind]
    rw [writeReg_ok (by exact hl), ok_bind, readTarget_ok (by simpa using hl)]
    simp
  | cmp ha hb => simp only [exec, execCmp, readPair_ok ha hb]; rfl
  | jmp ha => simp only [exec, execJmp, readTarget_ok ha]; rfl
  | jeq_taken hf ha => simp only [exec, execJeq, jumpIf, hf, readTarget_ok ha]; rfl
  | jeq_not_taken hf => simp only [exec, execJeq, jumpIf, hf]; rfl
  | jne_taken hf ha => simp only [exec, execJne, jumpIf, hf, readTarget_ok ha]; rfl
  | jne_not_taken hf => simp only [exec, execJne, jumpIf, hf]; rfl
  | addi ha => simp only [exec, execAddi, readReg_ok ha, ok_bind, writeReg_ok ha]; rfl
  | st ha hb =>
    simp only [exec, execSt, readTarget_ok ha, readReg_ok hb, ok_bind]
    rw [memWrite_ok (by omega) (by omega)]; rfl

theorem exec_of_raises_first {a : Byte} {l : List Byte} (hi : i.registers = a :: l) (hr : s.readsFirst i = true)
    (ha : s.nregs ≤ a.toNat) : exec i s = .next (takeFault (instrRecord (badRegister a) s) s) := by
  cases i <;> cases hi
  case add => rw [exec, execAdd, alu_error_left (op := .add) nofun ha]; rfl
  case mult => rw [exec, execMult, readPair_error_left ha]; rfl
  case cmp => rw [exec, execCmp, readPair_error_left ha]; rfl
  case st => rw [exec, execSt, readTarget_error ha]; rfl
  case prn => rw [exec, execPrn, readReg_error ha]; rfl
  case push => rw [exec, execPush, readReg_error ha]; rfl
  case pop => rw [exec, execPop, checkReg_error ha]; rfl
  case call => rw [exec, execCall, checkReg_error ha]; rfl
  case jmp => rw [exec, execJmp, readTarget_error ha]; rfl
  case jeq => rw [exec, execJeq, show jeqTaken s.fl = true from hr, jumpIf, readTarget_error ha]; rfl
  case jne => rw [exec, execJne, show jneTaken s.fl = true from hr, jumpIf, readTarget_error ha]; rfl
  case ldi => rw [exec, execLdi, writeReg_error ha]; rfl
  case addi => rw [exec, execAddi, readReg_error ha]; rfl

theorem exec_of_raises_second {a b : Byte} (hi : i.registers = [a, b]) (ha : a.toNat < s.nregs) (hb : s.nregs ≤ b.toNat) :
    exec i s = .next (takeFault (instrRecord (badRegister b) s) s) := by
  cases i <;> cases hi
  case add => rw [exec, execAdd, alu_error_right (op := .add) nofun nofun ha hb]; rfl
  case mult => rw [exec, execMult, readPair_error_right ha hb]; rfl
  case cmp => rw [exec, execCmp, readPair_error_right ha hb]; rfl
  case st => rw [exec, execSt, readTarget_ok ha, ok_bind, readReg_error hb]; rfl

theorem exec_of_raises (h : Raises s i r) : exec i s = .next (takeFault (instrRecord r s) s) := by
  cases h with
  | bad_first hi hr ha => exact exec_of_raises_first hi hr ha
  | bad_second hi ha hb => exact exec_of_raises_second hi ha hb
  | push_full ha hs => rw [exec, execPush, readReg_ok ha, ok_bind, pushByte_error hs]; rfl
  | pop_empty ha hs => rw [exec, execPop, checkReg_ok ha, ok_bind, popByte_error hs]; rfl
  | call_full ha hl hs =>
    rw [exec, execCall, checkReg_ok ha, ok_bind, writeReg_ok (by exact hl), ok_bind, pushByte_error (by exact hs)]; rfl
  | call_no_link ha hl => rw [exec, execCall, checkReg_ok ha, ok_bind, writeReg_error (by exact hl)]; rfl
  | ret_empty hs => rw [exec, execRet, popByte_error hs]; rfl
  | ret_no_link h0 h1 hl =>
    simp only [exec, execRet, popByte_ok h0 h1, ok_bind]
    rw [writeReg_error (by exact hl)]; rfl

theorem completes_or_raises_of_first {a : Byte} {l : List Byte} (hi : i.registers = a :: l) (hr : s.readsFirst i = true)
    (h : a.toNat < s.nregs → (∃ t, Completes s i t) ∨ ∃ r, Raises s i r) :
    (∃ t, Completes s i t) ∨ ∃ r, Raises s i r :=
  (Nat.lt_or_ge a.toNat s.nregs).elim h fun ha => .inr ⟨_, .bad_first hi hr ha⟩

theorem completes_or_raises_of_pair {a b : Byte} (hi : i.registers = [a, b]) (hr : s.readsFirst i = true)
    (h : a.toNat < s.nregs → b.toNat < s.nregs → ∃ t, Completes s i t) :
    (∃ t, Completes s i t) ∨ ∃ r, Raises s i r :=
  completes_or_raises_of_first hi hr fun ha =>
    (Nat.lt_or_ge b.toNat s.nregs).elim (fun hb => .inl (h ha hb)) fun hb => .inr ⟨_, .bad_second hi ha hb⟩

theorem completes_or_raises (i : Instr) (s : State) : (∃ t, Completes s i t) ∨ ∃ r, Raises s i r := by
  cases i with
  | add a b => exact completes_or_raises_of_pair rfl rfl fun ha hb => ⟨_, .add ha hb⟩
  | mult a b => exact completes_or_raises_of_pair rfl rfl fun ha hb => ⟨_, .mult ha hb⟩
  | cmp a b => exact completes_or_raises_of_pair rfl rfl fun ha hb => ⟨_, .cmp ha hb⟩
  | st a b => exact completes_or_raises_of_pair rfl rfl fun ha hb => ⟨_, .st ha hb⟩
  | prn a => exact completes_or_raises_of_first rfl rfl fun ha => .inl ⟨_, .prn ha⟩
  | ldi a imm => exact completes_or_raises_of_first rfl rfl fun ha => .inl ⟨_, .ldi ha⟩
  | addi a imm => exact completes_or_raises_of_first rfl rfl fun ha => .inl ⟨_, .addi ha⟩
  | jmp a => exact completes_or_raises_of_first rfl rfl fun ha => .inl ⟨_, .jmp ha⟩
  | hlt => exact .inl ⟨_, .hlt⟩
  | jeq a =>
    cases hf : jeqTaken s.fl with
    | true => exact completes_or_raises_of_first rfl hf fun ha => .inl ⟨_, .jeq_taken hf ha⟩
    | false => exact .inl ⟨_, .jeq_not_taken hf⟩
  | jne a =>
    cases hf : jneTaken s.fl with
    | true => exact completes_or_raises_of_first rfl hf fun ha => .inl ⟨_, .jne_taken hf ha⟩
    | false => exact .inl ⟨_, .jne_not_taken hf⟩
  | push a =>
    refine completes_or_raises_of_first rfl rfl fun ha => ?_
    by_cases hs : 0 ≤ s.sp ∧ s.sp ≤ 255
    · exact .inl ⟨_, .push ha hs.1 hs.2⟩
    · exact .inr ⟨_, .push_full ha (by omega)⟩
  | pop a =>
    refine completes_or_raises_of_first rfl rfl fun ha => ?_
    by_cases hs : -1 ≤ s.sp ∧ s.sp ≤ 254
    · exact .inl ⟨_, .pop ha hs.1 hs.2⟩
    · exact .inr ⟨_, .pop_empty ha (by omega)⟩
  | call a =>
    refine completes_or_raises_of_first rfl rfl fun ha => ?_
    rcases Nat.lt_or_ge 5 s.nregs with hl | hl
    · by_cases hs : 0 ≤ s.sp ∧ s.sp ≤ 255
      · exact .inl ⟨_, .call ha hl hs.1 hs.2⟩
      · exact .inr ⟨_, .call_full ha hl (by omega)⟩
    · exact .inr ⟨_, .call_no_link ha hl⟩
  | ret =>
    by_cases hs : -1 ≤ s.sp ∧ s.sp ≤ 254
    · rcases Nat.lt_or_ge 5 s.nregs with hl | hl
      · exact .inl ⟨_, .ret hl hs.1 hs.2⟩
      · exact .inr ⟨_, .ret_no_link hs.1 hs.2 hl⟩
    · exact .inr ⟨_, .ret_empty (by omega)⟩

/-- Everything an instruction can answer: it completes, or takes the fault it raises in the state it began in. -/
theorem exec_cases (h : exec i s = .next t) :
    Completes s i t ∨ ∃ r, Raises s i r ∧ t = takeFault (instrRecord r s) s := by
  obtain ⟨u, hu⟩ | ⟨r, hr⟩ := completes_or_raises i s
  · rw [exec_of_completes hu] at h
    cases h
    exact .inl hu
  · rw [exec_of_raises hr] at h
    cases h
    exact .inr ⟨r, hr, rfl⟩

/-! ### The step as a relation

`StepsTo` says once what a step can do; every claim about all steps is a case split on it. -/

/-- The state after the opcode fetch (rule R82). -/
abbrev State.withOpcode (s : State) : State := s.latchOpcode (readByte s.mem s.pc)

/-- The state an instruction runs in: opcode and both operand bytes latched (rules R82, R84). -/
abbrev State.fetched (s : State) : State :=
  s.withOpcode.latchOperands (readByte s.mem (s.pc + 1)) (readByte s.mem (s.pc + 2))

/-- `i` is the instruction the bytes at pc make, and both operand slots are in memory (rules R83, R84). -/
def Runs (s : State) (i : Instr) : Prop :=
  s.pc ≤ 253 ∧ ∃ f, dispatch (readByte s.mem s.pc) = some f ∧
    i = f.build (readByte s.mem (s.pc + 1)) (readByte s.mem (s.pc + 2))

/-- `StepsTo s t`: a step of the running state `s` answers `t` (rule R90). It is `step` itself: `stepsTo_of_step`,
`step_of_stepsTo`. -/
inductive StepsTo (s : State) : State → Prop where
  | ended (hp : 256 ≤ s.pc) : StepsTo s (s.setRun .ended)
  | unknown (hp : s.pc ≤ 255) (hd : dispatch (readByte s.mem s.pc) = none) :
      StepsTo s (takeFault (fetchRecord ⟨.unknownOpcode, .none⟩ s.withOpcode) s.withOpcode)
  | beyond (h0 : 254 ≤ s.pc) (h1 : s.pc ≤ 255) (hd : (dispatch (readByte s.mem s.pc)).isSome) :
      StepsTo s (takeFault (fetchRecord (badAddress 256) s.withOpcode) s.withOpcode)
  | completes {i : Instr} {t : State} (hi : Runs s i) (h : Completes s.fetched i t) : StepsTo s t
  | raises {i : Instr} {r : Raise} (hi : Runs s i) (h : Raises s.fetched i r) :
      StepsTo s (takeFault (instrRecord r s.fetched) s.fetched)

theorem step_of_runs (hr : s.run = .running) (hi : Runs s i) : step s = exec i s.fetched := by
  obtain ⟨hp, f, hd, rfl⟩ := hi
  rw [step, fetch_instr hr hp hd]

theorem stepsTo_of_step (h : step s = .next t) : s.run = .running ∧ StepsTo s t := by
  obtain ⟨hr, ⟨hp, rfl⟩ | ⟨hp, hd, rfl⟩ | ⟨h0, h1, hd, rfl⟩ | ⟨hp, f, hd, he⟩⟩ := step_cases h
  · exact ⟨hr, .ended hp⟩
  · exact ⟨hr, .unknown hp hd⟩
  · exact ⟨hr, .beyond h0 h1 hd⟩
  · have hi : Runs s (f.build (readByte s.mem (s.pc + 1)) (readByte s.mem (s.pc + 2))) := ⟨hp, f, hd, rfl⟩
    obtain hc | ⟨r, hx, rfl⟩ := exec_cases he
    · exact ⟨hr, .completes hi hc⟩
    · exact ⟨hr, .raises hi hx⟩

theorem step_of_stepsTo (hr : s.run = .running) (h : StepsTo s t) : step s = .next t := by
  cases h with
  | ended hp => rw [step, fetch_programEnd hr hp]
  | unknown hp hd => rw [step, fetch_unknown hr hp hd]; rfl
  | beyond h0 h1 hd =>
    obtain ⟨f, hd⟩ := Option.isSome_iff_exists.mp hd
    rw [step, fetch_beyond hr h1 hd h0]; rfl
  | completes hi h => rw [step_of_runs hr hi, exec_of_completes h]
  | raises hi h => rw [step_of_runs hr hi, exec_of_raises h]

/-! ### The number of registers -/

theorem Completes.nregs_eq (h : Completes s i t) : t.nregs = s.nregs := by
  cases h with
  | add | mult | ldi | pop | call | ret | addi => exact List.length_set
  | _ => rfl

theorem StepsTo.nregs_eq (h : StepsTo s t) : t.nregs = s.nregs := by
  cases h with
  | completes _ h => exact h.nregs_eq
  | _ => rfl

/-- Settles O15: a completed instruction writes the register file only by `List.set`, and everything else leaves it. -/
theorem stepKeepsRegisterCount : Obligations.StepKeepsRegisterCount :=
  fun _ _ h => (stepsTo_of_step h).2.nregs_eq

/-! ### More registers -/

/-- The machine state with further registers behind those it has. -/
def State.addRegs (s : State) (more : List Byte) : State := s.setRegs (s.regs ++ more)

theorem Completes.of_eq (h : Completes s i t) (e : t = u) : Completes s i u := e ▸ h

section
variable {more : List Byte} {n : Nat}

theorem lt_addRegs (h : n < s.nregs) : n < (s.addRegs more).nregs := by
  simpa [State.addRegs] using Nat.lt_add_right _ h

theorem getElem_addRegs (h : n < s.nregs) : (s.addRegs more).regs[n]'(lt_addRegs h) = s.regs[n] :=
  List.getElem_append_left h

theorem set_addRegs (h : n < s.nregs) (v : Byte) : (s.addRegs more).regs.set n v = s.regs.set n v ++ more :=
  List.set_append_left _ _ h
end

theorem Completes.addRegs (h : Completes s i t) (more : List Byte) : Completes (s.addRegs more) i (t.addRegs more) := by
  cases h with
  | add ha hb =>
    refine .of_eq (.add (lt_addRegs ha) (lt_addRegs hb)) ?_
    rw [getElem_addRegs ha, getElem_addRegs hb, set_addRegs ha]; rfl
  | mult ha hb =>
    refine .of_eq (.mult (lt_addRegs ha) (lt_addRegs hb)) ?_
    rw [getElem_addRegs ha, getElem_addRegs hb, set_addRegs ha]; rfl
  | cmp ha hb =>
    refine .of_eq (.cmp (lt_addRegs ha) (lt_addRegs hb)) ?_
    rw [getElem_addRegs ha, getElem_addRegs hb]; rfl
  | st ha hb =>
    refine .of_eq (.st (lt_addRegs ha) (lt_addRegs hb)) ?_
    rw [getElem_addRegs ha, getElem_addRegs hb]; rfl
  | prn ha => exact .of_eq (.prn (lt_addRegs ha)) (by rw [getElem_addRegs ha]; rfl)
  | ldi ha => exact .of_eq (.ldi (lt_addRegs ha)) (by rw [set_addRegs ha]; rfl)
  | addi ha => exact .of_eq (.addi (lt_addRegs ha)) (by rw [getElem_addRegs ha, set_addRegs ha]; rfl)
  | hlt => exact .hlt
  | push ha h0 h1 => exact .of_eq (.push (lt_addRegs ha) h0 h1) (by rw [getElem_addRegs ha]; rfl)
  | pop ha h0 h1 => exact .of_eq (.pop (lt_addRegs ha) h0 h1) (by rw [set_addRegs ha]; rfl)
  | call ha hl h0 h1 =>
    refine .of_eq (.call (lt_addRegs ha) (lt_addRegs hl) h0 h1) ?_
    simp only [set_addRegs hl]
    rw [List.getElem_append_left (by simpa using ha)]; rfl
  | ret hl h0 h1 => exact .of_eq (.ret (lt_addRegs hl) h0 h1) (by rw [set_addRegs hl]; rfl)
  | jmp ha => exact .of_eq (.jmp (lt_addRegs ha)) (by rw [getElem_addRegs ha]; rfl)
  | jeq_taken hf ha => exact .of_eq (.jeq_taken (s := s.addRegs more) hf (lt_addRegs ha)) (by rw [getElem_addRegs ha]; rfl)
  | jeq_not_taken hf => exact .jeq_not_taken hf
  | jne_taken hf ha => exact .of_eq (.jne_taken (s := s.addRegs more) hf (lt_addRegs ha)) (by rw [getElem_addRegs ha]; rfl)
  | jne_not_taken hf => exact .jne_not_taken hf

theorem Raises.addRegs (h : Raises s i r) (hr : ∀ j, r.detail ≠ .register j) (more : List Byte) :
    Raises (s.addRegs more) i r := by
  cases h with
  | push_full ha hs => exact .push_full (lt_addRegs ha) hs
  | pop_empty ha hs => exact .pop_empty (lt_addRegs ha) hs
  | call_full ha hl hs => exact .call_full (lt_addRegs ha) (lt_addRegs hl) hs
  | ret_empty hs => exact .ret_empty hs
  | bad_first | bad_second | call_no_link | ret_no_link => exact absurd rfl (hr _)

theorem StepsTo.addRegs (h : StepsTo s t) (hr : ∀ r j, t.fault = some r → r.detail ≠ .register j) (more : List Byte) :
    StepsTo (s.addRegs more) (t.addRegs more) := by
  cases h with
  | ended hp => exact .ended hp
  | unknown hp hd => exact .unknown hp hd
  | beyond h0 h1 hd => exact .beyond h0 h1 hd
  | completes hi h => exact .completes (s := s.addRegs more) hi (h.addRegs more)
  | raises hi h => exact .raises (s := s.addRegs more) hi (h.addRegs (fun j => hr _ j rfl) more)

/-- Settles O16: a step other than an index fault is the same step with the further registers added. -/
theorem moreRegistersChangeOnlyIndexFaults : Obligations.MoreRegistersChangeOnlyIndexFaults := by
  intro s t more h hr
  obtain ⟨hrun, hst⟩ := stepsTo_of_step h
  exact step_of_stepsTo (s := s.addRegs more) hrun (hst.addRegs hr more)

/-! ### The ranges: what each state update needs to keep them -/

namespace State.InRange
variable {s : State} (h : s.InRange)
include h

theorem setRegs {l : List Byte} (hl : l.length = s.nregs) : (s.setRegs l).InRange :=
  { h with nregs_eq := by simpa [hl] using h.nregs_eq }
theorem setPc {n : Nat} (hn : n ≤ 256) : (s.setPc n).InRange := { h with pc_le := hn }
theorem setSp {n : Int} (h0 : -1 ≤ n) (h1 : n ≤ 255) : (s.setSp n).InRange := { h with sp_ge := h0, sp_le := h1 }
theorem setFl_compareFlags (va vb : Byte) : (s.setFl (compareFlags va vb)).InRange :=
  { h with fl_mem := by simp only [State.setFl_fl, compareFlags, flagEq, flagGt, flagLt]; split_ifs <;> simp }
theorem setMem_writeByte {a : Nat} (ha : a < 256) (v : Byte) : (s.setMem (writeByte s.mem a v)).InRange :=
  { h with mem_wf := writeByte_wf h.mem_wf ha v }
theorem setRun (r : RunState) : (s.setRun r).InRange := { h with }
theorem emit (v : Byte) : (s.emit v).InRange := { h with }
theorem takeFault (r : FaultRecord) : (takeFault r s).InRange := { h with }
theorem latchOpcode (o : Byte) : (s.latchOpcode o).InRange := { h with }
theorem latchOperands (a b : Byte) : (s.latchOperands a b).InRange := { h with }
end State.InRange

theorem Completes.inRange (h : Completes s i t) (hp : s.pc ≤ 253) (hs : s.InRange) : t.InRange := by
  have target (v : Byte) : v.toNat ≤ 256 := by omega
  cases h with
  | add | mult | ldi | addi => exact (hs.setRegs List.length_set).setPc (by omega)
  | prn => exact (hs.emit _).setPc (by omega)
  | hlt => exact hs.setRun _
  | push _ h0 h1 => exact ((hs.setMem_writeByte (by omega) _).setSp (by omega) (by omega)).setPc (by omega)
  | pop _ h0 h1 =>
    exact (((hs.setMem_writeByte (by omega) _).setSp (by omega) (by omega)).setRegs List.length_set).setPc (by omega)
  | call _ _ h0 h1 =>
    exact (((hs.setRegs List.length_set).setMem_writeByte (by simp; omega) _).setSp (by omega) (by omega)).setPc (target _)
  | ret _ h0 h1 =>
    exact (((hs.setMem_writeByte (by omega) _).setSp (by omega) (by omega)).setRegs List.length_set).setPc (target _)
  | cmp => exact (hs.setFl_compareFlags _ _).setPc (by omega)
  | jmp | jeq_taken | jne_taken => exact hs.setPc (target _)
  | jeq_not_taken | jne_not_taken => exact hs.setPc (by omega)
  | st => exact (hs.setMem_writeByte (by omega) _).setPc (by omega)

theorem StepsTo.inRange (h : StepsTo s t) (hs : s.InRange) : t.InRange := by
  have ho : s.withOpcode.InRange := hs.latchOpcode _
  have hf : s.fetched.InRange := ho.latchOperands _ _
  cases h with
  | ended => exact hs.setRun _
  | unknown | beyond => exact ho.takeFault _
  | completes hi h => exact h.inRange hi.1 hf
  | raises => exact hf.takeFault _

/-- Settles O14: by the cases of a step, each a chain of updates that keep the ranges. -/
theorem stepKeepsRanges : Obligations.StepKeepsRanges :=
  fun _ _ hs h => (stepsTo_of_step h).2.inRange hs

/-! ### Run coherence -/

/-- The instruction a dispatch row builds has the opcode the row stands for (rule R64). -/
theorem opcode_build {o : Byte} {f : Format} (h : dispatch o = some f) (a b : Byte) : (f.build a b).opcode = o := by
  unfold dispatch at h
  split at h <;> cases h <;> rfl

theorem Runs.opcode_eq (h : Runs s i) : i.opcode = readByte s.mem s.pc := by
  obtain ⟨_, f, hd, rfl⟩ := h
  exact opcode_build hd _ _

theorem Raises.kind_eq (h : Raises s i r) : r.kind = .outOfBounds := by
  cases h <;> rfl

/-- Only HLT changes the run state, and no completed instruction touches the record (rules R31, R171). -/
theorem Completes.run_cases (h : Completes s i t) :
    (i = .hlt ∧ t = s.setRun .halted) ∨ (t.run = s.run ∧ t.fault = s.fault) := by
  cases h with
  | hlt => exact .inl ⟨rfl, rfl⟩
  | _ => exact .inr ⟨rfl, rfl⟩

theorem State.RunCoherent.of_running (hr : s.run = .running) (hf : s.fault = none) : s.RunCoherent := by
  rwa [State.RunCoherent, hr]

theorem State.RunCoherent.fault_eq_none (h : s.RunCoherent) (hr : s.run = .running) : s.fault = none := by
  rwa [State.RunCoherent, hr] at h

theorem StepsTo.runCoherent (h : StepsTo s t) (hr : s.run = .running) (hs : s.InRange) (hc : s.RunCoherent) :
    t.RunCoherent := by
  have hnone := hc.fault_eq_none hr
  have hpc := hs.pc_le
  cases h with
  | ended hp => exact ⟨hnone, Nat.le_antisymm hpc hp⟩
  | unknown hp hd => exact ⟨_, rfl, rfl, hp, rfl, .inl rfl⟩
  | beyond h0 h1 hd => exact ⟨_, rfl, rfl, h1, rfl, .inr rfl⟩
  | raises hi h => exact ⟨_, rfl, rfl, hi.1.trans (by decide), rfl, .inr h.kind_eq⟩
  | completes hi h =>
    obtain ⟨rfl, rfl⟩ | ⟨hrun, hfault⟩ := h.run_cases
    · exact ⟨hnone, hi.1, hi.opcode_eq.symm⟩
    · exact .of_running (hrun.trans hr) (hfault.trans hnone)

/-! ### Reachable states -/

/-- Both invariants, on the machine with `n` registers. -/
def MeetsInvariants (n : Nat) (s : State) : Prop := s.InRange ∧ s.RunCoherent ∧ s.nregs = n

theorem MeetsInvariants.step {n : Nat} (hs : MeetsInvariants n s) (h : step s = .next t) : MeetsInvariants n t := by
  obtain ⟨hin, hco, hn⟩ := hs
  obtain ⟨hr, hst⟩ := stepsTo_of_step h
  exact ⟨hst.inRange hin, hst.runCoherent hr hin hco, hst.nregs_eq.trans hn⟩

/-- What every step keeps holds in every state of a run that begins with it (rule R91). -/
theorem Steps.keeps {P : State → Prop} (hP : ∀ s t, P s → step s = .next t → P t) (h : Steps s t) (hs : P s) : P t := by
  induction h with
  | refl => exact hs
  | tail _ h ih => exact hP _ _ ih h

theorem load_eq_ok {image : List Byte} (h : load image s = .ok t) : t = s.setMem (storeBytes s.mem 0 image) := by
  unfold load at h
  split at h <;> cases h
  rfl

theorem meetsInvariants_resetWith {n : Nat} (hn : n = 7 ∨ n = 8) : MeetsInvariants n (State.resetWith n) := by
  have hlen : (State.resetWith n).nregs = n := List.length_replicate
  refine ⟨⟨Memory.wf_nil, Nat.zero_le _, ?_, le_refl (255 : Int), ?_, .inl rfl⟩, rfl, hlen⟩
  · exact (by decide : (-1 : Int) ≤ 255)
  · rwa [hlen]

theorem MeetsInvariants.load {n : Nat} {image : List Byte} (hs : MeetsInvariants n s) (hr : s.run = .running)
    (h : load image s = .ok t) : MeetsInvariants n t := by
  obtain ⟨hin, hco, hn⟩ := hs
  cases load_eq_ok h
  exact ⟨{ hin with mem_wf := storeBytes_wf image hin.mem_wf 0 }, .of_running hr (hco.fault_eq_none hr), hn⟩

/-- Settles O19: RESET and LOAD establish both invariants and every step keeps them. -/
theorem reachableStatesMeetTheInvariants : Obligations.ReachableStatesMeetTheInvariants := by
  rintro n s hn ⟨image, start, hboot, hsteps⟩
  have hstart : MeetsInvariants n start := (meetsInvariants_resetWith hn).load rfl hboot
  exact hsteps.keeps (fun _ _ => MeetsInvariants.step) hstart
end Sys2Proof.Machine

/-! ### What one step changes

A step changes an element of the state other than its latches, its run state and its record only by completing an instruction
(`completes_of_step`), so a rule about what a step changes is a case split on `Completes`. -/

namespace Sys2Proof.Machine

variable {s t : State} {i : Instr} {r : Raise}

/-! ### Run coherence and reset -/

/-- Settles O17: by the cases of a step; only HLT, the program end and a raise leave RUNNING. -/
theorem stepKeepsRunCoherence : Obligations.StepKeepsRunCoherence := by
  intro s t hin hco h
  obtain ⟨hrun, hst⟩ := stepsTo_of_step h
  exact hst.runCoherent hrun hin hco

/-- Settles O18: this hardware is the machine with 7 registers, which RESET leaves with both invariants. -/
theorem resetMeetsTheInvariants : Obligations.ResetMeetsTheInvariants := by
  obtain ⟨hin, hco, -⟩ := meetsInvariants_resetWith (.inl rfl)
  exact ⟨hin, hco⟩

/-- Settles O20: 0 to 256 is below 2^9, and -1 to 255 lies within the two's complement range of 9 bits. -/
theorem pcAndSpFitNineBits : Obligations.PcAndSpFitNineBits := by
  rintro s ⟨-, hpc, hsp0, hsp1, -, -⟩
  constructor
  · rw [BitVec.toNat_ofNat, Nat.mod_eq_of_lt (by omega)]
  · rw [BitVec.toInt_ofInt, Int.bmod_eq_of_le (by omega) (by omega)]

/-! ### Operands of the instruction that runs -/

/-- The operands of the instruction a dispatch row builds are the operand slots it is given, without the unused ones (rules R61, R62). -/
theorem operands_build_prefix {o : Byte} {f : Format} (h : dispatch o = some f) (a b : Byte) :
    (f.build a b).operands <+: [a, b] := by
  unfold dispatch at h
  split at h <;> cases h <;> simp [Format.build, Instr.operands]

theorem Runs.first_operand_eq (h : Runs s i) {a : Byte} {l : List Byte} (ho : i.operands = a :: l) :
    a = readByte s.mem (s.pc + 1) := by
  obtain ⟨_, f, hd, rfl⟩ := h
  have hp := operands_build_prefix hd (readByte s.mem (s.pc + 1)) (readByte s.mem (s.pc + 2))
  rw [ho] at hp
  exact (List.cons_prefix_cons.mp hp).1

theorem build_of_parse {f : Format} {a b : Byte} {rest : List Byte} (h : f.parse [a, b] = .ok (i, rest)) :
    i = f.build a b := by
  cases f <;> cases h <;> rfl

theorem runs_of_decode {rest : List Byte} (hp : s.pc ≤ 253)
    (h : decode [readByte s.mem s.pc, readByte s.mem (s.pc + 1), readByte s.mem (s.pc + 2)] = .ok (i, rest)) : Runs s i := by
  cases hd : dispatch (readByte s.mem s.pc) with
  | none => simp only [decode, hd] at h; cases h
  | some f => simp only [decode, hd] at h; exact ⟨hp, f, hd, build_of_parse h⟩

/-! ### The allowed side -/

theorem instr_wf_iff {n : Nat} : i.wf n = true ↔ ∀ a ∈ i.registers, a.toNat < n := by
  simp [Instr.wf]

/-- With its registers, a register 5, a free cell at sp and a filled one above it, an instruction passes every check. -/
theorem not_raises_of_wf (hw : i.wf s.nregs = true) (hl : 5 < s.nregs) (h0 : 0 ≤ s.sp) (h1 : s.sp ≤ 254) : ¬ Raises s i r := by
  rw [instr_wf_iff] at hw
  intro h
  cases h with
  | bad_first hi _ ha => exact absurd (hw _ (by simp [hi])) (Nat.not_lt.mpr ha)
  | bad_second hi _ hb => exact absurd (hw _ (by simp [hi])) (Nat.not_lt.mpr hb)
  | push_full _ hs | pop_empty _ hs | ret_empty hs => omega
  | call_full _ _ hs => omega
  | call_no_link _ hn | ret_no_link _ _ hn => exact absurd hl (Nat.not_lt.mpr hn)

/-- Settles O23: the instruction passes every check, so it completes, and no completed instruction faults. -/
theorem wellFormedInstructionsDoNotFault : Obligations.WellFormedInstructionsDoNotFault := by
  intro s i rest hrun hp hd hw hl h0 h1
  have hi : Runs s i := runs_of_decode hp hd
  obtain ⟨t, ht⟩ | ⟨r, hr⟩ := completes_or_raises i s.fetched
  · refine ⟨t, step_of_stepsTo hrun (.completes hi ht), ?_⟩
    obtain ⟨-, rfl⟩ | ⟨htrun, htfault⟩ := ht.run_cases
    · exact ⟨nofun, rfl⟩
    · have hgoes : t.run = .running := htrun.trans hrun
      exact ⟨by simp [State.Safe, hgoes], htfault⟩
  · exact absurd hr (not_raises_of_wf hw hl h0 h1)

/-! ### Only a completed instruction moves anything -/

/-- `s` and `t` agree but for latches, run state and record: the elements whose value rule R202 keeps. -/
structure Unmoved (s t : State) : Prop where
  regs : t.regs = s.regs
  pc : t.pc = s.pc
  sp : t.sp = s.sp
  fl : t.fl = s.fl
  mem : t.mem = s.mem
  out : t.out = s.out

theorem StepsTo.completes_or_unmoved (h : StepsTo s t) :
    (∃ i, Runs s i ∧ Completes s.fetched i t) ∨ Unmoved s t := by
  cases h with
  | completes hi h => exact .inl ⟨_, hi, h⟩
  | ended | unknown | beyond | raises => exact .inr ⟨rfl, rfl, rfl, rfl, rfl, rfl⟩

theorem completes_of_step (h : step s = .next t) (hne : ¬ Unmoved s t) : ∃ i, Runs s i ∧ Completes s.fetched i t :=
  (stepsTo_of_step h).2.completes_or_unmoved.resolve_right hne

/-! ### Flags -/

/-- CMP's result is one of the three flag values (rules R27, R114). -/
theorem compareFlags_cases (va vb : Byte) :
    compareFlags va vb = 0b001#8 ∨ compareFlags va vb = 0b010#8 ∨ compareFlags va vb = 0b100#8 := by
  unfold compareFlags
  split_ifs
  · exact .inl rfl
  · exact .inr (.inl rfl)
  · exact .inr (.inr rfl)

theorem Completes.fl_of_ne (h : Completes s i t) (hne : t.fl ≠ s.fl) :
    i.opcode = 0xA7#8 ∧ (t.fl = 0b001#8 ∨ t.fl = 0b010#8 ∨ t.fl = 0b100#8) := by
  cases h with
  | cmp => exact ⟨rfl, compareFlags_cases _ _⟩
  | _ => exact absurd rfl hne

/-- Settles O24: of the completed instructions only CMP writes fl. -/
theorem onlyCmpChangesFlags : Obligations.OnlyCmpChangesFlags := by
  intro s t h hne
  obtain ⟨i, hi, hc⟩ := completes_of_step h fun hu => hne hu.fl
  have hfl := hc.fl_of_ne hne
  rwa [hi.opcode_eq] at hfl

/-! ### The stack pointer -/

theorem Completes.sp_of_ne (h : Completes s i t) (hne : t.sp ≠ s.sp) :
    (t.sp = s.sp - 1 ∧ (i.opcode = 0x45#8 ∨ i.opcode = 0x50#8)) ∨
    (t.sp = s.sp + 1 ∧ (i.opcode = 0x46#8 ∨ i.opcode = 0x11#8)) := by
  cases h with
  | push => exact .inl ⟨rfl, .inl rfl⟩
  | call => exact .inl ⟨rfl, .inr rfl⟩
  | pop => exact .inr ⟨rfl, .inl rfl⟩
  | ret => exact .inr ⟨rfl, .inr rfl⟩
  | _ => exact absurd rfl hne

/-- Settles O25: of the completed instructions only the four stack instructions write sp. -/
theorem onlyStackInstructionsMoveSp : Obligations.OnlyStackInstructionsMoveSp := by
  intro s t h hne
  obtain ⟨i, hi, hc⟩ := completes_of_step h fun hu => hne hu.sp
  have hsp := hc.sp_of_ne hne
  rwa [hi.opcode_eq] at hsp

/-! ### Registers -/

theorem eq_of_getElem?_set_ne {l : List Byte} {n k : Nat} {v : Byte} (h : (l.set n v)[k]? ≠ l[k]?) : k = n := by
  by_contra hne
  exact h (List.getElem?_set_ne (Ne.symm hne))

theorem Completes.reg_of_ne (h : Completes s i t) {k : Nat} (hne : t.regs[k]? ≠ s.regs[k]?) :
    (i.opcode ∈ [0xA0#8, 0xA2#8, 0x82#8, 0x46#8, 0x88#8] ∧ ∃ a l, i.operands = a :: l ∧ k = a.toNat) ∨
    (i.opcode ∈ [0x50#8, 0x11#8] ∧ k = 5) := by
  cases h with
  | add | mult | ldi | pop | addi =>
    exact .inl ⟨by simp [Instr.opcode], _, _, rfl, eq_of_getElem?_set_ne hne⟩
  | call | ret => exact .inr ⟨by simp [Instr.opcode], eq_of_getElem?_set_ne hne⟩
  | _ => exact absurd rfl hne

/-- Settles O27: a completed instruction writes the register file only by `List.set`, at its first operand or at the link register. -/
theorem onlyNamedRegisterChanges : Obligations.OnlyNamedRegisterChanges := by
  intro s t k h hne
  obtain ⟨i, hi, hc⟩ := completes_of_step h fun hu => hne (by rw [hu.regs])
  have hreg := hc.reg_of_ne hne
  rw [hi.opcode_eq] at hreg
  obtain ⟨hop, a, l, ho, rfl⟩ | hlink := hreg
  · exact .inl ⟨hop, by rw [hi.first_operand_eq ho]⟩
  · exact .inr hlink

/-! ### Output -/

theorem Completes.out_of_ne (h : Completes s i t) (hne : t.out ≠ s.out) :
    ∃ a, i = .prn a ∧ ∃ ha : a.toNat < s.nregs, t.out = s.out ++ [s.regs[a.toNat]] := by
  cases h with
  | prn ha => exact ⟨_, rfl, ha, rfl⟩
  | _ => exact absurd rfl hne

/-- Settles O28: of the completed instructions only PRN emits. -/
theorem onlyPrnAppendsOutput : Obligations.OnlyPrnAppendsOutput := by
  intro s t h hne
  obtain ⟨i, hi, hc⟩ := completes_of_step h fun hu => hne hu.out
  obtain ⟨a, rfl, hout⟩ := hc.out_of_ne hne
  cases hi.first_operand_eq rfl
  exact ⟨hi.opcode_eq.symm, hout⟩

/-! ### The program counter -/

/-- Run at 253 or lower, only a sequential instruction of three bytes can leave pc beyond memory (rules R86, R94): jumps and returns
go to an address a byte holds. -/
theorem Completes.pc_cases (h : Completes s i t) (hp : s.pc ≤ 253) :
    t.pc ≤ 255 ∨ (t.pc = s.pc + 3 ∧ t.run = s.run ∧ i.opcode ∈ [0xA0#8, 0xA2#8, 0x82#8, 0xA7#8, 0x88#8, 0x84#8]) := by
  have target (v : Byte) : v.toNat ≤ 255 := by omega
  have two : s.pc + 2 ≤ 255 := by omega
  cases h with
  | add | mult | ldi | cmp | addi | st => exact .inr ⟨rfl, rfl, by simp [Instr.opcode]⟩
  | hlt => exact .inl (hp.trans (by decide))
  | prn | push | pop | jeq_not_taken | jne_not_taken => exact .inl two
  | call | ret | jmp | jeq_taken | jne_taken => exact .inl (target _)

/-- Settles O29: a step that completes no instruction leaves pc; one that does goes beyond 255 only by three bytes, from 253 to 256. -/
theorem pcReaches256OnlyFrom253 : Obligations.PcReaches256OnlyFrom253 := by
  intro s t hp h
  obtain ⟨hrun, hst⟩ := stepsTo_of_step h
  obtain ⟨i, hi, hc⟩ | hu := hst.completes_or_unmoved
  · have hp253 : s.pc ≤ 253 := hi.1
    obtain hpc | ⟨hpc, htrun, hop⟩ := hc.pc_cases hp253
    · exact ⟨by omega, fun e => by omega⟩
    · change t.pc = s.pc + 3 at hpc
      refine ⟨by omega, fun e => ?_⟩
      have hs : s.pc = 253 := by omega
      rw [hi.opcode_eq, hs] at hop
      exact ⟨hs, htrun.trans hrun, hop⟩
  · have hpc := hu.pc
    exact ⟨by omega, fun e => by omega⟩

end Sys2Proof.Machine

/-! ### Memory: what an access answers, which step writes which cell, and what a step can raise -/

namespace Sys2Proof.Machine

variable {s t : State} {i : Instr} {r : Raise}

/-- Settles O30: both operations make the same range check, and a write is read back at its own cell alone. -/
theorem memReadAfterMemWrite : Obligations.MemReadAfterMemWrite := by
  intro s addr v
  constructor
  · intro h0 h1
    refine ⟨memRead_ok h0 h1, _, memWrite_ok h0 h1, rfl, fun k => ?_⟩
    have hk : (k : Int) = addr ↔ k = addr.toNat := by omega
    simp only [hk]
    exact readByte_writeByte s.mem addr.toNat k v
  · exact fun h => ⟨memRead_error h, memWrite_error h⟩

/-! ### Which step changes which cell -/

theorem written_cell_of_ne {k a : Nat} {v : Byte} (hne : readByte t.mem k ≠ readByte s.mem k)
    (ht : t.mem = writeByte s.mem a v) : k = a ∧ readByte t.mem k = v := by
  rw [ht, readByte_writeByte] at hne ⊢
  by_cases hk : k = a
  · exact ⟨hk, if_pos hk⟩
  · rw [if_neg hk] at hne
    exact absurd rfl hne

theorem Completes.byte_of_ne (h : Completes s i t) {k : Nat} (hne : readByte t.mem k ≠ readByte s.mem k) :
    ((i.opcode = 0x45#8 ∨ i.opcode = 0x50#8) ∧ (k : Int) = s.sp) ∨
    ((i.opcode = 0x46#8 ∨ i.opcode = 0x11#8) ∧ (k : Int) = s.sp + 1 ∧ readByte t.mem k = 0#8) ∨
    ∃ a b, i = .st a b ∧ ∃ ha : a.toNat < s.nregs, k = s.regs[a.toNat].toNat := by
  cases h with
  | push _ h0 _ | call _ _ h0 _ =>
    obtain ⟨hk, -⟩ := written_cell_of_ne hne rfl
    exact .inl ⟨by simp [Instr.opcode], by omega⟩
  | pop _ h0 _ | ret _ h0 _ =>
    obtain ⟨hk, hv⟩ := written_cell_of_ne (a := (s.sp + 1).toNat) (v := 0#8) hne rfl
    exact .inr (.inl ⟨by simp [Instr.opcode], by omega, hv⟩)
  | st ha _ => exact .inr (.inr ⟨_, _, rfl, ha, (written_cell_of_ne hne rfl).1⟩)
  | _ => exact absurd rfl hne

/-- Settles O26: of the completed instructions only the four stack instructions and ST write memory, one cell each. -/
theorem onlyStoresChangeMemory : Obligations.OnlyStoresChangeMemory := by
  intro s t k h hne
  obtain ⟨i, hi, hc⟩ := completes_of_step h fun hu => hne (congrArg (readByte · k) hu.mem)
  have hcell := hc.byte_of_ne hne
  rw [hi.opcode_eq] at hcell
  obtain hpush | hpop | ⟨a, b, rfl, hst⟩ := hcell
  · exact .inl hpush
  · exact .inr (.inl hpop)
  · cases hi.first_operand_eq rfl
    exact .inr (.inr ⟨hi.opcode_eq.symm, hst⟩)

/-! ### What a step can raise -/

theorem opcode_mem_opcodes (i : Instr) : i.opcode ∈ Claims.opcodes := by
  cases i <;> simp [Instr.opcode, Claims.opcodes]

theorem dispatch_isSome_of_mem_opcodes : ∀ o ∈ Claims.opcodes, (dispatch o).isSome := by decide

/-- The dispatch table has a row for exactly the 15 opcodes (rules R64, R66). -/
theorem dispatch_isSome_iff {o : Byte} : (dispatch o).isSome ↔ o ∈ Claims.opcodes := by
  refine ⟨fun h => ?_, dispatch_isSome_of_mem_opcodes o⟩
  obtain ⟨f, hf⟩ := Option.isSome_iff_exists.mp h
  rw [← opcode_build hf 0#8 0#8]
  exact opcode_mem_opcodes _

/-- In range, with the register 5 that rule R9 gives every machine, an instruction can raise only for a register index it names, for
an empty stack (sp = 255) or for a full one (sp = -1). -/
theorem Raises.detail_cases (h : Raises s i r) (hs : s.InRange) :
    (∃ j : Byte, r.detail = .register j ∧ s.nregs ≤ j.toNat) ∨
    (r.detail = .address 256 ∧ s.sp = 255 ∧ i.opcode ∈ [0x46#8, 0x11#8]) ∨
    (r.detail = .address (-1) ∧ s.sp = -1 ∧ i.opcode ∈ [0x45#8, 0x50#8]) := by
  obtain ⟨-, -, hge, hle, hn, -⟩ := hs
  have full (hsp : s.sp < 0 ∨ 255 < s.sp) : s.sp = -1 := by omega
  have empty (hsp : s.sp < -1 ∨ 254 < s.sp) : s.sp = 255 := by omega
  cases h with
  | bad_first _ _ hbad | bad_second _ _ hbad => exact .inl ⟨_, rfl, hbad⟩
  | push_full _ hsp | call_full _ _ hsp =>
    exact .inr (.inr ⟨congrArg Detail.address (full hsp), full hsp, by simp [Instr.opcode]⟩)
  | pop_empty _ hsp | ret_empty hsp =>
    exact .inr (.inl ⟨congrArg (fun n => Detail.address (n + 1)) (empty hsp), empty hsp, by simp [Instr.opcode]⟩)
  | call_no_link _ hl | ret_no_link _ _ hl => omega

/-- Settles O22: by the cases of a step; a step that raises nothing leaves no record where there was none. -/
theorem whatAStepCanRaise : Obligations.WhatAStepCanRaise := by
  intro s t r hs hnone h hr
  obtain ⟨-, hst⟩ := stepsTo_of_step h
  cases hst with
  | ended => exact absurd (hnone.symm.trans hr) nofun
  | unknown hp hd =>
    cases hr
    have hno : readByte s.mem s.pc ∉ Claims.opcodes := by rw [← dispatch_isSome_iff, hd]; nofun
    exact .inl ⟨rfl, rfl, hno⟩
  | beyond h0 h1 hd =>
    cases hr
    exact .inr ⟨rfl, dispatch_isSome_iff.mp hd, .inr (.inl ⟨rfl, .inl h0⟩)⟩
  | completes hi hc =>
    have hfault : t.fault = none := by
      obtain ⟨-, rfl⟩ | ⟨-, hkept⟩ := hc.run_cases
      · exact hnone
      · exact hkept.trans hnone
    exact absurd (hfault.symm.trans hr) nofun
  | @raises i _ hi hx =>
    cases hr
    have hknown := opcode_mem_opcodes i
    have hdetail := hx.detail_cases ((hs.latchOpcode _).latchOperands _ _)
    rw [hi.opcode_eq] at hknown hdetail
    refine .inr ⟨hx.kind_eq, hknown, hdetail.imp_right ?_⟩
    exact Or.imp_left fun ⟨hd, hsp, hm⟩ => ⟨hd, .inr ⟨hsp, hm⟩⟩

end Sys2Proof.Machine

/-! ### The encoding

Decoding rests on one row of the dispatch table: the instruction it builds has the row's opcode (`opcode_build`) and, as operands, as
many of the two slots as the row's width covers (`operands_build`), and it parses exactly those bytes (`exists_build_of_parse`,
`exists_parse_operands`). -/

namespace Sys2Proof

open Sys2Proof.Machine

variable {o : Byte} {f : Format} {i : Instr} {tail rest bytes : List Byte}

/-! ### One row of the dispatch table -/

/-- Beside its opcode a row's encoding has room for `width - 1` of the two slots; the instruction keeps just those (rules R61, R62). -/
theorem operands_build (h : dispatch o = some f) (a b : Byte) : (f.build a b).operands = [a, b].take (f.width - 1) := by
  unfold dispatch at h
  split at h <;> cases h <;> rfl

theorem encode_build (h : dispatch o = some f) (a b : Byte) :
    encode (f.build a b) = o :: [a, b].take (f.width - 1) := by
  rw [encode, opcode_build h, operands_build h]

theorem exists_build_of_parse (h : f.parse tail = .ok (i, rest)) :
    ∃ a b, i = f.build a b ∧ tail = [a, b].take (f.width - 1) ++ rest := by
  match f, tail, h with
  | .op _, _, rfl => exact ⟨0#8, 0#8, rfl, rfl⟩
  | .opR _, a :: _, rfl => exact ⟨a, 0#8, rfl, rfl⟩
  | .opRR _, a :: b :: _, rfl | .opRI _, a :: b :: _, rfl => exact ⟨a, b, rfl, rfl⟩

theorem exists_parse_operands (i : Instr) (rest : List Byte) :
    ∃ f, dispatch i.opcode = some f ∧ f.parse (i.operands ++ rest) = .ok (i, rest) := by
  cases i <;> exact ⟨_, rfl, rfl⟩

theorem Format.build_ignores_second (h : f.width ≤ 2) (a b b' : Byte) : f.build a b = f.build a b' := by
  cases f with
  | op | opR => rfl
  | opRR | opRI => simp [Format.width] at h

theorem Format.build_ignores_both (h : f.width = 1) (a a' b b' : Byte) : f.build a b = f.build a' b' := by
  cases f with
  | op => rfl
  | opR | opRR | opRI => simp [Format.width] at h

/-! ### The decoder -/

theorem decode_cons_of_dispatch (h : dispatch o = some f) : decode (o :: tail) = f.parse tail := by
  simp only [decode, h]

theorem decode_cons_of_dispatch_none (h : dispatch o = none) : decode (o :: tail) = .error (.unknownOpcode o) := by
  simp only [decode, h]

theorem dispatch_eq_none_iff : dispatch o = none ↔ o ∉ Claims.opcodes := by
  rw [← dispatch_isSome_iff, Option.not_isSome_iff_eq_none]

theorem decode_encode (i : Instr) (rest : List Byte) : decode (encode i ++ rest) = .ok (i, rest) := by
  obtain ⟨f, hd, hp⟩ := exists_parse_operands i rest
  exact (decode_cons_of_dispatch hd).trans hp

theorem eq_encode_of_decode (h : decode bytes = .ok (i, rest)) : bytes = encode i ++ rest := by
  cases bytes with
  | nil => cases h
  | cons o tail =>
    cases hd : dispatch o with
    | none => rw [decode_cons_of_dispatch_none hd] at h; cases h
    | some f =>
      rw [decode_cons_of_dispatch hd] at h
      obtain ⟨a, b, rfl, rfl⟩ := exists_build_of_parse h
      rw [encode_build hd, List.cons_append]

/-- Settles O4: a row parses what the instruction it builds is encoded as, and nothing else. -/
theorem decodeEncodeAgree : Obligations.DecodeEncodeAgree :=
  ⟨decode_encode, fun _ _ _ => eq_encode_of_decode⟩

/-- Settles O5: the decoder and the step both ask the dispatch table first, which has rows for the 15 opcodes alone. -/
theorem otherBytesAreUnknownOpcode : Obligations.OtherBytesAreUnknownOpcode := by
  refine ⟨fun _ => dispatch_isSome_iff, fun _ _ h => ?_, fun s hrun hp h => ?_⟩
  · exact decode_cons_of_dispatch_none (dispatch_eq_none_iff.mpr h)
  · exact step_of_stepsTo hrun (.unknown hp (dispatch_eq_none_iff.mpr h))

/-- Settles O6: each word is the encoding of its instruction. -/
theorem writtenOutWordsDecode : Obligations.WrittenOutWordsDecode :=
  ⟨decode_encode (.add 1#8 2#8) [], decode_encode (.addi 0#8 10#8) [], decode_encode (.st 1#8 0#8) [],
    decode_encode (.pop 2#8) [], decode_encode .ret [], decode_encode (.jne 200#8) [], decode_encode (.prn 0#8) []⟩

/-! ### The bits of an opcode (rule R65) -/

theorem lengthOf_opcode (i : Instr) : lengthOf i.opcode = some (encode i).length := by
  cases i <;> rfl

theorem opcode_length_bits (i : Instr) : (i.opcode.extractLsb' 6 2).toNat + 1 = (encode i).length := by
  cases i <;> simp [encode, Instr.opcode, Instr.operands]

theorem opcode_bit_four_iff (i : Instr) : i.opcode.getLsbD 4 = true ↔
    (∃ a, i = .call a) ∨ i = .ret ∨ (∃ a, i = .jmp a) ∨ (∃ a, i = .jeq a) ∨ ∃ a, i = .jne a := by
  cases i with
  | call | ret | jmp | jeq | jne => exact iff_of_true (by simp [Instr.opcode]) (by simp)
  | _ => exact iff_of_false (by simp [Instr.opcode]) (by simp)

theorem opcode_bit_five_iff (i : Instr) : i.opcode.getLsbD 5 = true ↔
    (∃ a b, i = .add a b) ∨ (∃ a b, i = .mult a b) ∨ ∃ a b, i = .cmp a b := by
  cases i with
  | add | mult | cmp => exact iff_of_true (by simp [Instr.opcode]) (by simp)
  | _ => exact iff_of_false (by simp [Instr.opcode]) (by simp)

/-- Settles O7: read off the 15 opcodes. -/
theorem opcodeBitsRegular : Obligations.OpcodeBitsRegular :=
  fun i => ⟨lengthOf_opcode i, opcode_length_bits i, opcode_bit_four_iff i, opcode_bit_five_iff i⟩

/-- Settles O8: a row passes its constructor only the slots its width covers, whichever opcode it stands for. -/
theorem unusedSlotsIgnored : Obligations.UnusedSlotsIgnored :=
  fun _ _ _ => ⟨Format.build_ignores_second, Format.build_ignores_both⟩

end Sys2Proof

/-! ### The execution loop

Every running state takes a step (`exists_stepsTo`), and no other state does (`step_of_terminal`). -/

namespace Sys2Proof.Machine

variable {s : State}

/-- The cases of `StepsTo` leave no state out: where an instruction runs, it completes or raises. -/
theorem exists_stepsTo (s : State) : ∃ t, StepsTo s t := by
  rcases Nat.lt_or_ge 255 s.pc with hp | hp
  · exact ⟨_, .ended hp⟩
  · cases hd : dispatch (readByte s.mem s.pc) with
    | none => exact ⟨_, .unknown hp hd⟩
    | some f =>
      rcases Nat.lt_or_ge 253 s.pc with h254 | h253
      · exact ⟨_, .beyond h254 hp (Option.isSome_of_eq_some hd)⟩
      · have hi : Runs s (f.build (readByte s.mem (s.pc + 1)) (readByte s.mem (s.pc + 2))) := ⟨h253, f, hd, rfl⟩
        obtain ⟨t, ht⟩ | ⟨r, hr⟩ := completes_or_raises _ s.fetched
        · exact ⟨t, .completes hi ht⟩
        · exact ⟨_, .raises hi hr⟩

/-- In HALTED, ENDED and FAULTED no step is enabled (rule R87). -/
theorem step_of_terminal (h : s.run ≠ .running) : step s = .fault (.notRunning s.run) := by
  rw [step, fetch_notRunning h]

theorem step_ne_next_of_terminal (h : s.run ≠ .running) (t : State) : step s ≠ .next t :=
  fun hst => h (stepsTo_of_step hst).1

/-- Settles O10: up to 253 the row's instruction runs, and above it the fetch of a slot reaches address 256. -/
theorem operandFetchAlwaysBothSlots : Obligations.OperandFetchAlwaysBothSlots := by
  intro s f hr hd
  constructor
  · intro hp
    exact step_of_runs hr ⟨hp, f, hd, rfl⟩
  · intro h0 h1
    exact step_of_stepsTo hr (.beyond h0 h1 (Option.isSome_of_eq_some hd))

/-- Settles O12: the cases of a step cover every running state, and a step that answers a state began in one. -/
theorem stepEnabledExactlyWhenRunning : Obligations.StepEnabledExactlyWhenRunning := by
  refine fun s => ⟨⟨?_, fun hr => ?_⟩, step_of_terminal⟩
  · rintro ⟨t, ht⟩
    exact (stepsTo_of_step ht).1
  · obtain ⟨t, ht⟩ := exists_stepsTo s
    exact ⟨t, step_of_stepsTo hr ht⟩

/-- Settles O13: "to be `s`" is kept by every step, since `s` takes none. -/
theorem terminalStatesAbsorb : Obligations.TerminalStatesAbsorb := by
  refine fun s h => ⟨step_ne_next_of_terminal h, fun t hsteps => ?_⟩
  refine hsteps.keeps (P := (· = s)) ?_ rfl
  rintro _ u rfl hu
  exact absurd hu (step_ne_next_of_terminal h u)

/-- Settles O9: the bytes that decode are those the step fetches. -/
theorem stepRunsDecodedInstruction : Obligations.StepRunsDecodedInstruction :=
  fun _ _ _ hr hp hd => step_of_runs hr (runs_of_decode hp hd)

/-- Settles O11: the program-end check comes before any fetch. -/
theorem programEndEndsRun : Obligations.ProgramEndEndsRun :=
  fun _ hr hp => step_of_stepsTo hr (.ended hp)

end Sys2Proof.Machine

/-! ### The ALU and the instructions that compute

The ALU's results follow from one law for every operation that raises nothing (`alu_binary_ok`); each instruction's rule puts its
outcome as `Completes` has it beside the faults that all instructions share (`exec_of_raises_first`, `exec_of_raises_second`,
`faultsAtOperandFetch`). -/

namespace Sys2Proof.Machine

variable {s : State} {i j : Byte}

/-! ### The ALU's results -/

theorem setRegs_set_of_toNat {n v : Nat} {r : Byte} (hv : r.toNat = v) :
    s.setRegs (s.regs.set n r) = { s with regs := s.regs.set n (BitVec.ofNat 8 v) } := by
  subst hv
  rw [BitVec.ofNat_toNat, BitVec.setWidth_eq]
  rfl

/-- A binary operation that raises nothing writes its result, here as the integer it stands for, and nothing else (rule R100). -/
theorem alu_binary_ok {op : AluOp} {v : Nat} {r : Byte} (hn : op ≠ .not) (hu : ∀ n, op ≠ .unrecognized n)
    (hi : i.toNat < s.nregs) (hj : j.toNat < s.nregs)
    (hr : aluBinary op j s.regs[i.toNat] s.regs[j.toNat] = .ok r) (hv : r.toNat = v) :
    alu op i j s = .ok { s with regs := s.regs.set i.toNat (BitVec.ofNat 8 v) } := by
  rw [alu_binary hn hu hi hj, hr, ← setRegs_set_of_toNat hv]
  rfl

theorem alu_mod_zero (hi : i.toNat < s.nregs) (hj : j.toNat < s.nregs) (h0 : s.regs[j.toNat] = 0#8) :
    alu .mod i j s = .error ⟨.divisionByZero, .register j⟩ := by
  rw [alu_binary (op := .mod) nofun nofun hi hj, aluBinary, if_pos h0]
  rfl

theorem alu_not_ok (hi : i.toNat < s.nregs) :
    alu .not i j s = .ok { s with regs := s.regs.set i.toNat (BitVec.ofNat 8 (255 - s.regs[i.toNat].toNat)) } := by
  rw [alu_not hi, setRegs_set_of_toNat BitVec.toNat_not]

/-- A tag outside the nine reads no register (rule R110; log entry 5). -/
theorem alu_unrecognized (n : Nat) :
    alu (.unrecognized n) i j s = .error ⟨.unsupportedOperation (.unrecognized n), .none⟩ := rfl

/-- Settles O31: each operation on bytes is the integer operation its library law says it is; MOD asks for a zero divisor first. -/
theorem aluResults : Obligations.AluResults := by
  intro s i j hi hj vi vj result
  have binary {op : AluOp} {v : Nat} {r : Byte} := alu_binary_ok (op := op) (v := v) (r := r) (hi := hi) (hj := hj)
  refine ⟨?add, ?sub, ?and, ?or, ?xor, ?not, ?shl, ?shr, ?mod⟩
  case add => exact binary nofun nofun rfl (BitVec.toNat_add _ _)
  case sub => exact binary nofun nofun rfl (by rw [BitVec.toNat_sub, Nat.add_comm])
  case and => exact binary nofun nofun rfl (BitVec.toNat_and _ _)
  case or => exact binary nofun nofun rfl (BitVec.toNat_or _ _)
  case xor => exact binary nofun nofun rfl (BitVec.toNat_xor _ _)
  case not => exact alu_not_ok hi
  case shl => exact binary nofun nofun rfl (by rw [BitVec.toNat_shiftLeft, Nat.shiftLeft_eq])
  case shr => exact binary nofun nofun rfl (by rw [BitVec.toNat_ushiftRight, Nat.shiftRight_eq_div_pow])
  case mod =>
    have hzero : vj = 0 ↔ s.regs[j.toNat] = 0#8 := BitVec.toNat_inj (y := 0#8)
    split
    · next h0 => exact alu_mod_zero hi hj (hzero.mp h0)
    · next h0 => exact binary nofun nofun (if_neg (mt hzero.mpr h0)) BitVec.toNat_umod

/-- Settles O32: the two index checks are those of the ALU's reads, and NOT makes only the first. -/
theorem aluChecks : Obligations.AluChecks :=
  ⟨fun _ _ _ _ hu hi => alu_error_left hu hi, fun _ _ _ _ hu hn hi hj => alu_error_right hn hu hi hj,
    fun _ _ _ hi => alu_not_ok hi, fun _ n _ _ => alu_unrecognized n⟩

/-- Settles O33: in RUNNING a raise of the operation is taken with the indices in the record, elsewhere nothing happens. -/
theorem aluFaultRecordsItsIndices : Obligations.AluFaultRecordsItsIndices := by
  intro s pc opcode op i j recorded
  refine ⟨fun hr => ⟨?ok, ?modZero, ?tag, ?badLeft, ?badRight⟩, aluUse_terminal⟩
  case ok => exact fun t => aluUse_ok hr
  case modZero => exact fun hi hj h0 => aluUse_error hr (alu_mod_zero hi hj h0)
  case tag => exact fun n => aluUse_error hr (alu_unrecognized n)
  case badLeft => exact fun hu hi => aluUse_error hr (alu_error_left hu hi)
  case badRight => exact fun hu hn hi hj => aluUse_error hr (alu_error_right hn hu hi hj)

/-! ### What the rules of the instructions share -/

/-- The opcode of a dispatch row, at 254 or 255, faults at operand fetch (rule R84). -/
theorem faultsAtOperandFetch {o : Byte} (hd : (dispatch o).isSome) : Claims.FaultsAtOperandFetch o := by
  rintro s hr h0 h1 rfl
  exact step_of_stepsTo hr (.beyond h0 h1 hd)

/-- An instruction that completes with `r` in register `n` and pc moved on answers that state; `v` is the integer `r` stands for. -/
theorem exec_eq_of_completes_set {ins : Instr} {n p v : Nat} {r : Byte}
    (h : Completes s ins ((s.setRegs (s.regs.set n r)).setPc p)) (hv : r.toNat = v) :
    exec ins s = .next { s with regs := s.regs.set n (BitVec.ofNat 8 v), pc := p } := by
  rw [exec_of_completes h, setRegs_set_of_toNat hv]
  rfl

/-! ### The rules of ADD, MULT, CMP, ADDI -/

/-- Settles O34: byte addition is addition mod 256 (rules R11, R112), and `a` is checked before `b`. -/
theorem addRule : Obligations.AddRule := by
  refine ⟨?effect, ?badFirst, ?badSecond, ?decoded, faultsAtOperandFetch rfl⟩
  case effect => exact fun a b s ha hb => exec_eq_of_completes_set (.add ha hb) (BitVec.toNat_add _ _)
  case badFirst => exact fun a b s ha => exec_of_raises_first rfl rfl ha
  case badSecond => exact fun a b s ha hb => exec_of_raises_second rfl ha hb
  case decoded => exact fun a b rest => decode_encode (.add a b) rest

/-- Settles O35: byte multiplication keeps the low 8 bits of the product (rule R113), and `a` is checked before `b`. -/
theorem multRule : Obligations.MultRule := by
  refine ⟨?effect, ?badFirst, ?badSecond, ?decoded, faultsAtOperandFetch rfl⟩
  case effect => exact fun a b s ha hb => exec_eq_of_completes_set (.mult ha hb) (BitVec.toNat_mul _ _)
  case badFirst => exact fun a b s ha => exec_of_raises_first rfl rfl ha
  case badSecond => exact fun a b s ha hb => exec_of_raises_second rfl ha hb
  case decoded => exact fun a b rest => decode_encode (.mult a b) rest

/-- Settles O36: the flags of a completed CMP are those `compareFlags` gives the two unsigned values. -/
theorem cmpRule : Obligations.CmpRule := by
  refine ⟨?effect, ?badFirst, ?badSecond, ?decoded, faultsAtOperandFetch rfl⟩
  case effect => exact fun a b s ha hb => exec_of_completes (.cmp ha hb)
  case badFirst => exact fun a b s ha => exec_of_raises_first rfl rfl ha
  case badSecond => exact fun a b s ha hb => exec_of_raises_second rfl ha hb
  case decoded => exact fun a b rest => decode_encode (.cmp a b) rest

/-- Settles O37: the immediate is used as it stands, so there is no second register to check. -/
theorem addiRule : Obligations.AddiRule := by
  refine ⟨?effect, ?badFirst, ?decoded, faultsAtOperandFetch rfl⟩
  case effect => exact fun a imm s ha => exec_eq_of_completes_set (.addi ha) (BitVec.toNat_add _ _)
  case badFirst => exact fun a imm s ha => exec_of_raises_first rfl rfl ha
  case decoded => exact fun a imm rest => decode_encode (.addi a imm) rest

end Sys2Proof.Machine

/-! ### LDI and ST

The instructions that move a byte: into a register, and from a register into the cell another register names. -/

namespace Sys2Proof.Machine

/-- Settles O38: the immediate is written as it stands, so only `a` is checked (rule R130). -/
theorem ldiRule : Obligations.LdiRule := by
  refine ⟨?effect, ?badFirst, ?decoded, faultsAtOperandFetch rfl⟩
  case effect => exact fun a imm s ha => exec_of_completes (.ldi ha)
  case badFirst => exact fun a imm s ha => exec_of_raises_first rfl rfl ha
  case decoded => exact fun a imm rest => decode_encode (.ldi a imm) rest

/-- Settles O39: a register's value is always an address of memory, so the one write of ST cannot fault (rule R131), and it is
read back at that cell alone. -/
theorem stRule : Obligations.StRule := by
  refine ⟨?effect, ?badFirst, ?badSecond, ?decoded, faultsAtOperandFetch rfl⟩
  case effect =>
    exact fun a b s ha hb => ⟨_, exec_of_completes (.st ha hb), rfl, fun k => readByte_writeByte s.mem _ k _⟩
  case badFirst => exact fun a b s ha => exec_of_raises_first rfl rfl ha
  case badSecond => exact fun a b s ha hb => exec_of_raises_second rfl ha hb
  case decoded => exact fun a b rest => decode_encode (.st a b) rest

end Sys2Proof.Machine

/-! ### PUSH and POP

The two rules and the round trip read their effects off `Completes`; what they share is a cell addressed by the integer `sp`
(`readByte_writeByte_toNat`) and a raise whose detail is that address (`raises_address_of_raises`). -/

namespace Sys2Proof.Machine

variable {s : State} {i : Instr} {a b : Byte}

/-- A write at a non-negative integer address, as `sp` is one, is read back at that address alone. -/
theorem readByte_writeByte_toNat {addr : Int} (h0 : 0 ≤ addr) (m : Memory) (v : Byte) (k : Nat) :
    readByte (writeByte m addr.toNat v) k = if (k : Int) = addr then v else readByte m k := by
  have hk : (k : Int) = addr ↔ k = addr.toNat := by omega
  simp only [hk, readByte_writeByte]

/-- A raise for an address outside memory is the fault the claims write out, with that address as its detail (rules R41, R42, R203). -/
theorem raises_address_of_raises {k n : Int} (h : Raises s i (badAddress k)) (hk : k = n) : Claims.Raises i s (.address n) := by
  subst hk
  exact exec_of_raises h

/-- Settles O40: the register is read, and so checked, before the write at `sp`, which fails only on a full stack. -/
theorem pushRule : Obligations.PushRule := by
  refine ⟨?effect, ?badRegister, ?full, ?decoded, faultsAtOperandFetch rfl⟩
  case effect =>
    exact fun a s ha h0 h1 => ⟨_, exec_of_completes (.push ha h0 h1), rfl, readByte_writeByte_toNat h0 s.mem _⟩
  case badRegister => exact fun a s ha => exec_of_raises_first rfl rfl ha
  case full => exact fun a s ha hs => raises_address_of_raises (.push_full ha (.inl (by omega))) hs
  case decoded => exact fun a rest => decode_encode (.push a) rest

/-- Settles O41: the register is checked before the read at `sp + 1`, which fails only on an empty stack. -/
theorem popRule : Obligations.PopRule := by
  refine ⟨?effect, ?badRegister, ?empty, ?decoded, faultsAtOperandFetch rfl⟩
  case effect =>
    intro a s ha h0 h1
    have habove : 0 ≤ s.sp + 1 := by omega
    exact ⟨_, exec_of_completes (.pop ha h0 h1), rfl, readByte_writeByte_toNat habove s.mem 0#8⟩
  case badRegister => exact fun a s ha => exec_of_raises_first rfl rfl ha
  case empty => exact fun a s ha hs => raises_address_of_raises (.pop_empty ha (.inr (by omega))) (by omega)
  case decoded => exact fun a rest => decode_encode (.pop a) rest

/-- POP after PUSH reads and clears the cell PUSH wrote: the `sp + 1` it uses is the `sp` of the state before the PUSH. -/
theorem exec_push_then_pop (ha : a.toNat < s.nregs) (hb : b.toNat < s.nregs) (h0 : 0 ≤ s.sp) (h1 : s.sp ≤ 255) :
    ∃ t, exec (.push a) s = .next t ∧ exec (.pop b) t = .next { s with
      regs := s.regs.set b.toNat s.regs[a.toNat],
      mem := writeByte (writeByte s.mem s.sp.toNat s.regs[a.toNat]) s.sp.toNat 0#8,
      pc := s.pc + 4 } := by
  have hlow : -1 ≤ s.sp - 1 := by omega
  have hhigh : s.sp - 1 ≤ 254 := by omega
  refine ⟨_, exec_of_completes (.push ha h0 h1), exec_of_completes (.of_eq (.pop hb hlow hhigh) ?_)⟩
  have hsp : s.sp - 1 + 1 = s.sp := Int.sub_add_cancel s.sp 1
  simp [hsp, readByte_writeByte, State.setRegs, State.setMem, State.setSp, State.setPc]

/-- Settles O49: the second clause is the first with `b = a`, where a register is written with its own value. -/
theorem pushPopRoundTrip : Obligations.PushPopRoundTrip := by
  refine ⟨fun s a b ha hb h0 h1 => ?copy, fun s a ha h0 h1 => ?same⟩
  case copy =>
    obtain ⟨t, hpush, hpop⟩ := exec_push_then_pop ha hb h0 h1
    refine ⟨t, _, hpush, hpop, rfl, fun k => ?_⟩
    simp only [readByte_writeByte_toNat h0]
    split <;> rfl
  case same =>
    obtain ⟨t, hpush, hpop⟩ := exec_push_then_pop ha ha h0 h1
    exact ⟨t, _, hpush, hpop, List.set_getElem_self ha, rfl⟩

end Sys2Proof.Machine

/-! ### CALL, RET and the jumps

The five rules read their effects off `Completes`. The two laws over calls speak of the address a RET would return to
(`ReturnsTo`): a CALL leaves its call site plus 2 there, any change that keeps `sp` and that one cell keeps it, and a CALL with the RET
after it is such a change (`Completes.call_then_ret`). -/

namespace Sys2Proof.Machine

variable {s t u : State} {i : Instr} {a : Byte} {n : Nat}

/-! ### The rules of JMP, JEQ, JNE -/

/-- Settles O44: the one check of JMP is that of its register. -/
theorem jmpRule : Obligations.JmpRule := by
  refine ⟨?effect, ?badRegister, ?decoded, faultsAtOperandFetch rfl⟩
  case effect => exact fun a s ha => exec_of_completes (.jmp ha)
  case badRegister => exact fun a s ha => exec_of_raises_first rfl rfl ha
  case decoded => exact fun a rest => decode_encode (.jmp a) rest

theorem jeqTaken_iff {fl : Byte} : jeqTaken fl = true ↔ fl = 0b00000001#8 := beq_iff_eq

theorem jneTaken_iff {fl : Byte} : jneTaken fl = true ↔ fl = 0b00000010#8 ∨ fl = 0b00000100#8 := by
  rw [jneTaken, Bool.or_eq_true, beq_iff_eq, beq_iff_eq, flagGt, flagLt]

/-- Settles O45: a JEQ that is not taken reads no register, so nothing is asked of its index (rule R153). -/
theorem jeqRule : Obligations.JeqRule := by
  refine ⟨?taken, ?notTaken, ?badRegister, ?decoded, faultsAtOperandFetch rfl⟩
  case taken => exact fun a s ha hf => exec_of_completes (.jeq_taken (jeqTaken_iff.mpr hf) ha)
  case notTaken =>
    exact fun a s hf => exec_of_completes (.jeq_not_taken (Bool.eq_false_iff.mpr (mt jeqTaken_iff.mp hf)))
  case badRegister => exact fun a s hf ha => exec_of_raises_first rfl (jeqTaken_iff.mpr hf) ha
  case decoded => exact fun a rest => decode_encode (.jeq a) rest

/-- Settles O46: JNE asks for GT or LT, so it falls through on every other value of `fl`, 0 too (rule R154). -/
theorem jneRule : Obligations.JneRule := by
  refine ⟨?taken, ?notTaken, ?badRegister, ?decoded, faultsAtOperandFetch rfl⟩
  case taken => exact fun a s ha hf => exec_of_completes (.jne_taken (jneTaken_iff.mpr hf) ha)
  case notTaken =>
    intro a s hgt hlt
    have hf : ¬ jneTaken s.fl = true := fun h => (jneTaken_iff.mp h).elim hgt hlt
    exact exec_of_completes (.jne_not_taken (Bool.eq_false_iff.mpr hf))
  case badRegister => exact fun a s hf ha => exec_of_raises_first rfl (jneTaken_iff.mpr hf) ha
  case decoded => exact fun a rest => decode_encode (.jne a) rest

/-! ### The rules of CALL and RET -/

/-- Where a step runs CALL the return address is saved whole (rules R84, R150; log entry 12). -/
theorem returnAddress_toNat (hp : s.pc ≤ 253) : (returnAddress s).toNat = s.pc + 2 :=
  (BitVec.toNat_ofNat _ _).trans (Nat.mod_eq_of_lt (by omega))

/-- The target is read after the write of the link register, so CALL R5 goes on after itself (rule R150, decision D11). -/
theorem call_target (hp : s.pc ≤ 253) (ha : a.toNat < s.nregs) :
    ((s.regs.set 5 (returnAddress s))[a.toNat]'(by rwa [List.length_set])).toNat =
      if a.toNat = 5 then s.pc + 2 else s.regs[a.toNat].toNat := by
  simp only [List.getElem_set, eq_comm (a := 5)]
  split
  · exact returnAddress_toNat hp
  · rfl

/-- Settles O42: `a` is checked before the push, which fails only on a full stack; the target is `call_target`. -/
theorem callRule : Obligations.CallRule := by
  refine ⟨?effect, ?badRegister, ?full, ?decoded, faultsAtOperandFetch rfl⟩
  case effect =>
    intro a s ha hl hp h0 h1
    refine ⟨_, exec_of_completes (.call ha hl h0 h1), ?_, readByte_writeByte_toNat h0 s.mem _⟩
    rw [call_target hp ha]
    rfl
  case badRegister => exact fun a s ha => exec_of_raises_first rfl rfl ha
  case full => exact fun a s ha hl hs => raises_address_of_raises (.call_full ha hl (.inl (by omega))) hs
  case decoded => exact fun a rest => decode_encode (.call a) rest

/-- Settles O43: RET names no register of its own, so only the pop can fail, on an empty stack. -/
theorem retRule : Obligations.RetRule := by
  refine ⟨?effect, ?empty, ?decoded, faultsAtOperandFetch rfl⟩
  case effect =>
    intro s hl h0 h1
    have habove : 0 ≤ s.sp + 1 := by omega
    exact ⟨_, exec_of_completes (.ret hl h0 h1), rfl, readByte_writeByte_toNat habove s.mem 0#8⟩
  case empty => exact fun s hs => raises_address_of_raises (.ret_empty (.inr (by omega))) (by omega)
  case decoded => exact fun rest => decode_encode .ret rest

/-! ### Calls that return -/

/-- `ReturnsTo s n`: a RET in `s` passes its checks, and the address it pops is `n`. Tied to the model by `ReturnsTo.ret`. -/
structure ReturnsTo (s : State) (n : Nat) : Prop where
  link : 5 < s.nregs
  sp_ge : -1 ≤ s.sp
  sp_le : s.sp ≤ 254
  top : (readByte s.mem (s.sp + 1).toNat).toNat = n

theorem ReturnsTo.ret (h : ReturnsTo s n) : ∃ t, Completes s .ret t ∧ t.pc = n ∧ t.sp = s.sp + 1 :=
  ⟨_, .ret h.link h.sp_ge h.sp_le, h.top, rfl⟩

/-- Nothing else of the state bears on where a RET goes (rule R156). -/
theorem ReturnsTo.of_same_top (h : ReturnsTo s n) (hn : t.nregs = s.nregs) (hsp : t.sp = s.sp)
    (htop : readByte t.mem (s.sp + 1).toNat = readByte s.mem (s.sp + 1).toNat) : ReturnsTo t n where
  link := hn ▸ h.link
  sp_ge := hsp ▸ h.sp_ge
  sp_le := hsp ▸ h.sp_le
  top := by rw [hsp, htop, h.top]

/-- A CALL puts the address of the instruction after it where a RET finds it (rules R150, R156). -/
theorem Completes.call_returnsTo (h : Completes s (.call a) t) (hp : s.pc ≤ 253) : ReturnsTo t (s.pc + 2) := by
  cases h with
  | call ha hl h0 h1 =>
    refine ⟨hl.trans_eq List.length_set.symm, ?low, ?high, ?top⟩
    case low => show -1 ≤ s.sp - 1; omega
    case high => show s.sp - 1 ≤ 254; omega
    case top =>
      show (readByte (writeByte s.mem s.sp.toNat (returnAddress s)) (s.sp - 1 + 1).toNat).toNat = s.pc + 2
      rw [Int.sub_add_cancel, readByte_writeByte, if_pos rfl, returnAddress_toNat hp]

theorem Completes.call_sp (h : Completes s (.call a) t) : t.sp = s.sp - 1 := by
  cases h; rfl

/-- A CALL and the RET that answers it move sp back to where it was and touch only the cell the CALL pushed into. -/
theorem Completes.call_then_ret (hc : Completes s (.call a) t) (hr : Completes t .ret u) :
    u.sp = s.sp ∧ ∀ k : Nat, (k : Int) ≠ s.sp → readByte u.mem k = readByte s.mem k := by
  cases hc with
  | call ha hl h0 h1 =>
    cases hr with
    | ret =>
      have hsp : s.sp - 1 + 1 = s.sp := Int.sub_add_cancel s.sp 1
      refine ⟨hsp, fun k hk => ?_⟩
      simp [hsp, readByte_writeByte_toNat h0, hk]

/-- An answer that is not FAULTED is that of a completed instruction. -/
theorem completes_of_exec (h : exec i s = .next t) (hr : t.run ≠ .faulted) : Completes s i t := by
  obtain hc | ⟨r, -, rfl⟩ := exec_cases h
  · exact hc
  · exact absurd rfl hr

/-- Settles O50: the CALL leaves a `ReturnsTo` that reads only what the later state has in common with it. -/
theorem callThenRetReturns : Obligations.CallThenRetReturns := by
  intro s t u a hp hcall hok _ hn hsp htop
  have hreturns := (completes_of_exec hcall hok).call_returnsTo hp
  obtain ⟨v, hret, hpc, -⟩ := (hreturns.of_same_top hn hsp htop).ret
  exact ⟨v, exec_of_completes hret, hpc⟩

/-- Settles O51: the inner CALL and RET push and clear the cell below the outer return address, which the second RET then finds. -/
theorem nestedCallsReturn : Obligations.NestedCallsReturn := by
  intro s t u v a b hps _ houter ht hpt hinner hu hret
  have hca := completes_of_exec houter (by simp [ht])
  have hcb := completes_of_exec hinner (by simp [hu])
  obtain ⟨v', hrb, hpc, -⟩ := (hcb.call_returnsTo hpt).ret
  obtain rfl : v' = v := Host.Outcome.next.inj ((exec_of_completes hrb).symm.trans hret)
  obtain ⟨hsp, hkept⟩ := hcb.call_then_ret hrb
  have hreturns := hca.call_returnsTo hps
  have htop := hkept (t.sp + 1).toNat (by have := hreturns.sp_ge; omega)
  obtain ⟨w, hra, hpcw, hspw⟩ := (hreturns.of_same_top (hrb.nregs_eq.trans hcb.nregs_eq) hsp htop).ret
  refine ⟨w, hpc, exec_of_completes hra, hpcw, ?_⟩
  rw [hspw, hsp, hca.call_sp, Int.sub_add_cancel]

end Sys2Proof.Machine

/-! ### PRN and HLT

The two system instructions: PRN reads its register and appends to the output trace; HLT reads nothing and ends the run. -/

namespace Sys2Proof.Machine

/-- Settles O47: the one check of PRN is that of the register it emits (rule R170). -/
theorem prnRule : Obligations.PrnRule := by
  refine ⟨?effect, ?badRegister, ?decoded, faultsAtOperandFetch rfl⟩
  case effect => exact fun a s ha => exec_of_completes (.prn ha)
  case badRegister => exact fun a s ha => exec_of_raises_first rfl rfl ha
  case decoded => exact fun a rest => decode_encode (.prn a) rest

/-- Settles O48: HLT has no operand and checks nothing, so it completes in every state, with pc left on its own byte (rule R171,
decision D10). -/
theorem hltRule : Obligations.HltRule := by
  refine ⟨?effect, ?decoded, faultsAtOperandFetch rfl⟩
  case effect => exact fun s => exec_of_completes .hlt
  case decoded => exact fun rest => decode_encode .hlt rest

end Sys2Proof.Machine

/-! ### Precise faults

A step ends FAULTED in three ways only (the cases `unknown`, `beyond` and `raises` of `StepsTo`), each of which takes the fault in a
state that differs from the first in its latches alone. -/

namespace Sys2Proof.Machine

variable {s t : State} {i : Instr}

/-- A completed instruction never leaves the machine FAULTED. -/
theorem Completes.run_ne_faulted (h : Completes s i t) (hr : s.run = .running) : t.run ≠ .faulted := by
  obtain ⟨-, rfl⟩ | ⟨hrun, -⟩ := h.run_cases
  · nofun
  · rw [hrun, hr]
    nofun

/-- Settles O21: by the cases of a step. Only `raises` has both operands fetched; after it and the two fetch faults no step is enabled,
so the record stays. -/
theorem faultsArePrecise : Obligations.FaultsArePrecise := by
  refine ⟨fun s t h hfaulted => ?precise, fun s t hs hsteps => ?permanent⟩
  case precise =>
    obtain ⟨hrun, hst⟩ := stepsTo_of_step h
    cases hst with
    | ended => cases hfaulted
    | completes _ hc => exact absurd hfaulted (hc.run_ne_faulted hrun)
    | unknown _ hd =>
      have hslots : ¬ (s.pc ≤ 253 ∧ (dispatch (readByte s.mem s.pc)).isSome) := by simp [hd]
      exact ⟨rfl, _, rfl, rfl, rfl, (if_neg hslots).mpr ⟨rfl, rfl⟩⟩
    | beyond h0 _ _ =>
      have hslots : ¬ (s.pc ≤ 253 ∧ (dispatch (readByte s.mem s.pc)).isSome) := by omega
      exact ⟨rfl, _, rfl, rfl, rfl, (if_neg hslots).mpr ⟨rfl, rfl⟩⟩
    | raises hi _ =>
      obtain ⟨hp, f, hd, -⟩ := hi
      have hslots : s.pc ≤ 253 ∧ (dispatch (readByte s.mem s.pc)).isSome := ⟨hp, Option.isSome_of_eq_some hd⟩
      exact ⟨rfl, _, rfl, rfl, rfl, (if_pos hslots).mpr ⟨rfl, rfl⟩⟩
  case permanent =>
    have hterminal : s.run ≠ .running := by rw [hs]; nofun
    exact congrArg State.fault ((terminalStatesAbsorb s hterminal).2 t hsteps)

end Sys2Proof.Machine

/-! ### Reset, load, source

What RESET leaves, what LOAD then writes, and what the loader reads in a source line: its text (`lineText_of_surrounded`) and the
value of that text (`binaryValue_digits`, `binaryValue_eq_none`). -/

namespace Sys2Proof.Machine

open Sys2Proof.Claims

variable {s : State} {image : List Byte} {k n : Nat}

/-- Settles O1: every element but the registers is written out in the reset state; the registers are `n` copies of 0. -/
theorem resetLeavesSpecValues : Obligations.ResetLeavesSpecValues := by
  refine ⟨fun n => ⟨fun k => rfl, ?count, ?registers, rfl, rfl, rfl, rfl, rfl, rfl⟩, rfl⟩
  case count => exact List.length_replicate
  case registers => exact fun i h => List.getElem_replicate h

/-! ### LOAD (rule R231) -/

theorem load_of_le (h : image.length ≤ 256) : load image s = .ok (s.setMem (storeBytes s.mem 0 image)) := if_pos h

theorem load_of_gt (h : 256 < image.length) : load image s = .error (.imageTooLong image.length) := if_neg (Nat.not_le.mpr h)

theorem readByte_storeBytes_zero_of_lt (m : Memory) (himage : image.length ≤ 256) (hk : k < image.length) :
    readByte (storeBytes m 0 image) k = image[k] := by
  have hstored : 0 ≤ k ∧ k < 0 + image.length ∧ k < 256 := by omega
  rw [readByte_storeBytes, dif_pos hstored]
  rfl

theorem readByte_storeBytes_zero_of_ge (m : Memory) (hk : image.length ≤ k) :
    readByte (storeBytes m 0 image) k = readByte m k := by
  rw [readByte_storeBytes, dif_neg (by omega)]

/-- Settles O2: LOAD stores the image from address 0 into a memory whose every cell is 0. -/
theorem loadWritesImageFromZero : Obligations.LoadWritesImageFromZero := by
  refine fun n image => ⟨fun himage => ⟨_, load_of_le himage, rfl, ?stored, ?other⟩, load_of_gt⟩
  case stored => exact fun k hk => readByte_storeBytes_zero_of_lt _ himage hk
  case other => exact fun k hk => readByte_storeBytes_zero_of_ge _ hk

/-! ### The text of a source line (rule R232) -/

theorem ne_hash_of_isWhitespace {c : Char} (h : c.isWhitespace = true) : c ≠ '#' := by
  rintro rfl
  revert h
  decide

theorem dropWhile_eq_self_of_forall {p : Char → Bool} {l : List Char} (h : ∀ c ∈ l, p c = false) : l.dropWhile p = l :=
  List.dropWhile_eq_self_iff.mpr fun hl => Bool.eq_false_iff.mp (h _ (List.getElem_mem hl))

/-- What surrounds a text that holds none of it is dropped on both sides. -/
theorem trim_of_surrounded {p : Char → Bool} {before text after : List Char} (hbefore : ∀ c ∈ before, p c = true)
    (htext : ∀ c ∈ text, p c = false) (hafter : ∀ c ∈ after, p c = true) :
    ((((before ++ text ++ after).dropWhile p).reverse).dropWhile p).reverse = text := by
  rw [List.append_assoc, List.dropWhile_append_of_pos hbefore]
  cases text with
  | nil =>
    rw [List.nil_append, List.dropWhile_eq_nil_iff.mpr hafter]
    rfl
  | cons c text =>
    have hfirst : p c = false := htext c List.mem_cons_self
    rw [List.cons_append, List.dropWhile_cons_of_neg (Bool.eq_false_iff.mp hfirst), ← List.cons_append, List.reverse_append,
      List.dropWhile_append_of_pos fun c hc => hafter c (List.mem_reverse.mp hc),
      dropWhile_eq_self_of_forall fun c hc => htext c (List.mem_reverse.mp hc), List.reverse_reverse]

/-- A text without white space or `#`, with white space around it and a comment after it, is what is left of its line. -/
theorem lineText_of_surrounded {before text after : List Char} (comment : List Char)
    (hbefore : ∀ c ∈ before, c.isWhitespace = true) (htext : ∀ c ∈ text, c.isWhitespace = false ∧ c ≠ '#')
    (hafter : ∀ c ∈ after, c.isWhitespace = true) : lineText (before ++ text ++ after ++ '#' :: comment) = text := by
  have hbody : ∀ c ∈ before ++ text ++ after, (c != '#') = true := by
    intro c hc
    simp only [List.mem_append] at hc
    obtain (hc | hc) | hc := hc
    · exact bne_iff_ne.mpr (ne_hash_of_isWhitespace (hbefore c hc))
    · exact bne_iff_ne.mpr (htext c hc).2
    · exact bne_iff_ne.mpr (ne_hash_of_isWhitespace (hafter c hc))
  have hcut : (before ++ text ++ after ++ '#' :: comment).takeWhile (· != '#') = before ++ text ++ after := by
    rw [List.takeWhile_append_of_pos hbody, List.takeWhile_cons_of_neg (by decide), List.append_nil]
  rw [lineText, hcut]
  exact trim_of_surrounded hbefore (fun c hc => (htext c hc).1) hafter

/-! ### The value of a text of digits (rules R10, R232) -/

theorem addDigit_bit (n : Nat) (b : Bool) : addDigit (some n) (if b then '1' else '0') = some (2 * n + b.toNat) := by
  cases b <;> rfl

/-- The first `k` digits of a byte are the number its `k` high bits are. -/
theorem binaryValue_high_digits (v : Byte) (hk : k ≤ 8) :
    binaryValue ((List.range k).map fun i => if v.getMsbD i then '1' else '0') = some (v.toNat / 2 ^ (8 - k)) := by
  induction k with
  | zero => rw [Nat.div_eq_of_lt v.isLt]; rfl
  | succ k ih =>
    have hbit : (v.getMsbD k).toNat = v.toNat / 2 ^ (8 - (k + 1)) % 2 := by
      rw [BitVec.getMsbD_eq_getLsbD, decide_eq_true (by omega), Bool.true_and, ← BitVec.testBit_toNat, Nat.toNat_testBit,
        Nat.sub_sub, Nat.add_comm 1 k]
    have hpow : 2 ^ (8 - k) = 2 ^ (8 - (k + 1)) * 2 := by rw [← Nat.pow_succ]; congr 1; omega
    specialize ih (by omega)
    rw [binaryValue] at ih
    rw [binaryValue, List.range_succ, List.map_append, List.foldl_append, ih]
    simp only [List.map_cons, List.map_nil, List.foldl_cons, List.foldl_nil]
    rw [addDigit_bit, hbit, hpow, ← Nat.div_div_eq_div_mul, Nat.div_add_mod]

theorem binaryValue_digits (v : Byte) : binaryValue (digits v) = some v.toNat := by
  rw [digits, binaryValue_high_digits v le_rfl, Nat.sub_self, Nat.pow_zero, Nat.div_one]

theorem digits_ne_nil (v : Byte) : digits v ≠ [] := by simp [digits]

theorem not_isWhitespace_and_ne_hash_of_mem_digits {v : Byte} {c : Char} (h : c ∈ digits v) : c.isWhitespace = false ∧ c ≠ '#' := by
  obtain ⟨i, -, rfl⟩ := List.mem_map.mp h
  cases v.getMsbD i <;> decide

theorem addDigit_eq_none {c : Char} (acc : Option Nat) (h0 : c ≠ '0') (h1 : c ≠ '1') : addDigit acc c = none := by
  cases acc with
  | none => rfl
  | some n => rw [addDigit, if_neg h0, if_neg h1]

/-- One character other than 0 and 1 leaves a text without a value, wherever it stands. -/
theorem binaryValue_eq_none {text : List Char} {c : Char} (hc : c ∈ text) (h0 : c ≠ '0') (h1 : c ≠ '1') :
    binaryValue text = none := by
  obtain ⟨before, after, rfl⟩ := List.append_of_mem hc
  rw [binaryValue, List.foldl_append, List.foldl_cons, addDigit_eq_none _ h0 h1, List.foldl_fixed' fun _ => rfl]

/-! ### One source line (rule R232) -/

section
variable {line text : List Char}

theorem parseLine_of_blank (hline : lineText line = []) : parseLine n line = .ok none := by
  rw [parseLine, hline]

theorem parseLine_of_byte {v : Byte} (hline : lineText line = text) (hne : text ≠ []) (hv : binaryValue text = some v.toNat) :
    parseLine n line = .ok (some v) := by
  unfold parseLine
  split
  · next hblank => exact absurd (hline.symm.trans hblank) hne
  · simp [hline, hv, v.isLt]

theorem parseLine_of_no_value (h : binaryValue (lineText line) = none) : parseLine n line = .error (.malformedLine n) := by
  unfold parseLine
  split
  · next hblank => rw [hblank] at h; cases h
  · rw [h]

end

/-- Settles O3: the three forms differ in what is left of the line: the digits of a byte, nothing, or a text without a value. -/
theorem sourceLinesParse : Obligations.SourceLinesParse := by
  refine ⟨fun n v comment => ?byte, fun n comment => ?blank, fun n line c hc h0 h1 => ?malformed⟩
  case byte =>
    have htext : lineText ([' ', '\t'] ++ digits v ++ [' '] ++ '#' :: comment) = digits v :=
      lineText_of_surrounded (before := [' ', '\t']) (after := [' ']) comment (by simp)
        (fun _ => not_isWhitespace_and_ne_hash_of_mem_digits) (by simp)
    exact parseLine_of_byte htext (digits_ne_nil v) (binaryValue_digits v)
  case blank =>
    exact parseLine_of_blank
      (lineText_of_surrounded (before := [' ']) (text := []) (after := []) comment (by simp) nofun nofun)
  case malformed => exact parseLine_of_no_value (binaryValue_eq_none hc h0 h1)

end Sys2Proof.Machine
